-- ==== Sys2Proof/Word.lean ====
section
/-! DEFINITION. The machine's word types (00_scope.md R6, R9): all values are unsigned, and bit 0 is
the least significant bit. -/

namespace Sys2Proof

/-- One byte: a general register, a timer, a byte of memory, a sprite row (10_state.md R20, R30). -/
abbrev Byte := BitVec 8

/-- Sixteen bits: an instruction word, `PC`, `I`, a stack entry (10_state.md R22, R27, R28). -/
abbrev Word := BitVec 16

/-- A 4-bit register index, the `x` or `y` field of a word (30_encoding.md R91). -/
abbrev RegIndex := BitVec 4

/-- A 4-bit key index 0..15 (60_exceptions.md R237). -/
abbrev KeyIndex := BitVec 4

/-- A 12-bit address field `nnn` (30_encoding.md R91). -/
abbrev Addr := BitVec 12

end Sys2Proof
end

