-- ==== Sys2Proof/Syntax.lean ====
section
/-! DEFINITION. The 34 instructions, one constructor per row of spec/opcode_table.json
(00_scope.md R2, 30_encoding.md R94), in the table's order. An operand's type has exactly the
width of its field (30_encoding.md R91, R93). -/

namespace Sys2Proof

/-- An instruction. The pattern in each docstring is the spec's own name of it (30_encoding.md R110). -/
inductive Instr where
  /-- `00E0` clear screen (43_display.md R170). -/
  | cls
  /-- `00EE` return from subroutine (40_control.md R120). -/
  | ret
  /-- `1nnn` jump (40_control.md R121). -/
  | jp (nnn : Addr)
  /-- `2nnn` call subroutine (40_control.md R122). -/
  | call (nnn : Addr)
  /-- `3xnn` skip if equal to immediate (40_control.md R124). -/
  | seImm (x : RegIndex) (nn : Byte)
  /-- `4xnn` skip if not equal to immediate (40_control.md R125). -/
  | sneImm (x : RegIndex) (nn : Byte)
  /-- `5xy0` skip if registers equal (40_control.md R126). -/
  | seReg (x y : RegIndex)
  /-- `6xnn` load immediate (41_load_imm.md R140). -/
  | ldImm (x : RegIndex) (nn : Byte)
  /-- `7xnn` add immediate (41_load_imm.md R141). -/
  | addImm (x : RegIndex) (nn : Byte)
  /-- `8xy0` register move (42_alu.md R151). -/
  | ldReg (x y : RegIndex)
  /-- `8xy1` bitwise OR (42_alu.md R152). -/
  | orReg (x y : RegIndex)
  /-- `8xy2` bitwise AND (42_alu.md R153). -/
  | andReg (x y : RegIndex)
  /-- `8xy3` bitwise XOR (42_alu.md R154). -/
  | xorReg (x y : RegIndex)
  /-- `8xy4` add with carry out (42_alu.md R155). -/
  | addReg (x y : RegIndex)
  /-- `8xy5` subtract (42_alu.md R156). -/
  | subReg (x y : RegIndex)
  /-- `8xy6` shift right by one; `y` is encoded and ignored (42_alu.md R157). -/
  | shr (x y : RegIndex)
  /-- `8xy7` reverse subtract (42_alu.md R158). -/
  | subnReg (x y : RegIndex)
  /-- `8xyE` shift left by one; `y` is encoded and ignored (42_alu.md R159). -/
  | shl (x y : RegIndex)
  /-- `9xy0` skip if registers not equal (40_control.md R127). -/
  | sneReg (x y : RegIndex)
  /-- `Annn` load index (41_load_imm.md R142). -/
  | ldI (nnn : Addr)
  /-- `Bnnn` jump with offset `V[0]` (40_control.md R123). -/
  | jpV0 (nnn : Addr)
  /-- `Cxnn` random (41_load_imm.md R143). -/
  | rnd (x : RegIndex) (nn : Byte)
  /-- `Dxyn` draw sprite (43_display.md R172). -/
  | drw (x y : RegIndex) (n : BitVec 4)
  /-- `Ex9E` skip if key pressed (44_keys.md R180). -/
  | skp (x : RegIndex)
  /-- `ExA1` skip if key not pressed (44_keys.md R181). -/
  | sknp (x : RegIndex)
  /-- `Fx07` read delay timer (45_timers.md R190). -/
  | ldVxDT (x : RegIndex)
  /-- `Fx0A` wait for a key press (44_keys.md R182, R183). -/
  | ldVxK (x : RegIndex)
  /-- `Fx15` set delay timer (45_timers.md R191). -/
  | ldDTVx (x : RegIndex)
  /-- `Fx18` set sound timer (45_timers.md R192). -/
  | ldSTVx (x : RegIndex)
  /-- `Fx1E` add to index (46_index_memory.md R200). -/
  | addI (x : RegIndex)
  /-- `Fx29` font glyph address (46_index_memory.md R201). -/
  | ldF (x : RegIndex)
  /-- `Fx33` store binary-coded decimal (46_index_memory.md R202). -/
  | ldB (x : RegIndex)
  /-- `Fx55` block store `V[0]..V[x]` (46_index_memory.md R204). -/
  | storeRegs (x : RegIndex)
  /-- `Fx65` block load `V[0]..V[x]` (46_index_memory.md R205). -/
  | loadRegs (x : RegIndex)
  deriving DecidableEq, Repr

end Sys2Proof
end

