-- ==== Sys2Proof/WellFormed.lean ====
section
/-! DEFINITION. Which terms are well formed. An instruction's operands have exactly the widths of
their fields (30_encoding.md R91) and the opcode map accepts every value of every field
(30_encoding.md R94, R95), so every `Instr` is well formed. A program offered to `load` is not:
it has a largest length (70_reset_and_hazards.md R265). -/

namespace Sys2Proof

/-- `MAX_PROGRAM`, the largest loadable program in bytes (00_scope.md R6). -/
def maxProgram : Nat := 3583

/-- Every instruction term is well formed: no field of an `Instr` can hold a value that the word's
field cannot, and no row of 30_encoding.md R94 restricts the value of a field. -/
def Instr.WellFormed (_ : Instr) : Bool := true

/-- A program that `load` accepts (70_reset_and_hazards.md R265). -/
def programWellFormed (program : List Byte) : Bool := decide (program.length ≤ maxProgram)

end Sys2Proof
end

