-- ==== Sys2Proof/Decode.lean ====
section
/-! DEFINITION. Decoding and encoding of the 16-bit instruction words (30_encoding.md R90 to R95,
R100): the field extractors, the decoder, the encoder, and the opcode map of R94 as data. -/

namespace Sys2Proof

/-- Why bytes are not an instruction. -/
inductive DecodeError where
  /-- Fewer than two bytes were offered; the machine's own fetch always has two (20_memory.md R62). -/
  | truncated
  /-- The word matches no row of the opcode map (30_encoding.md R100). -/
  | invalidOpcode (w : Word)
  deriving DecidableEq, Repr

/-! ### Fields of a word (30_encoding.md R91) -/

/-- `op = w[15:12]`, the family selector. -/
def fieldOp (w : Word) : BitVec 4 := w.extractLsb' 12 4

/-- `x = w[11:8]`. -/
def fieldX (w : Word) : RegIndex := w.extractLsb' 8 4

/-- `y = w[7:4]`. -/
def fieldY (w : Word) : RegIndex := w.extractLsb' 4 4

/-- `n = w[3:0]`. -/
def fieldN (w : Word) : BitVec 4 := w.extractLsb' 0 4

/-- `nn = w[7:0]`. -/
def fieldNN (w : Word) : Byte := w.extractLsb' 0 8

/-- `nnn = w[11:0]`. -/
def fieldNNN (w : Word) : Addr := w.extractLsb' 0 12

/-! ### The decoder (30_encoding.md R95) -/

/-- Family `0`: only the two exact words are valid. -/
def decodeFamily0 (w : Word) : Except DecodeError Instr :=
  if w = 0x00E0#16 then .ok .cls
  else if w = 0x00EE#16 then .ok .ret
  else .error (.invalidOpcode w)

/-- Families `5` and `9`: valid only when `n = 0`. -/
def decodeIfNZero (w : Word) (i : Instr) : Except DecodeError Instr :=
  if fieldN w = 0#4 then .ok i else .error (.invalidOpcode w)

/-- Family `8`: the sub-selector is `n`. -/
def decodeFamily8 (w : Word) : Except DecodeError Instr :=
  match (fieldN w).toNat with
  | 0x0 => .ok (.ldReg (fieldX w) (fieldY w))
  | 0x1 => .ok (.orReg (fieldX w) (fieldY w))
  | 0x2 => .ok (.andReg (fieldX w) (fieldY w))
  | 0x3 => .ok (.xorReg (fieldX w) (fieldY w))
  | 0x4 => .ok (.addReg (fieldX w) (fieldY w))
  | 0x5 => .ok (.subReg (fieldX w) (fieldY w))
  | 0x6 => .ok (.shr (fieldX w) (fieldY w))
  | 0x7 => .ok (.subnReg (fieldX w) (fieldY w))
  | 0xE => .ok (.shl (fieldX w) (fieldY w))
  | _ => .error (.invalidOpcode w)

/-- Family `E`: the sub-selector is `nn`. -/
def decodeFamilyE (w : Word) : Except DecodeError Instr :=
  match (fieldNN w).toNat with
  | 0x9E => .ok (.skp (fieldX w))
  | 0xA1 => .ok (.sknp (fieldX w))
  | _ => .error (.invalidOpcode w)

/-- Family `F`: the sub-selector is `nn`. -/
def decodeFamilyF (w : Word) : Except DecodeError Instr :=
  match (fieldNN w).toNat with
  | 0x07 => .ok (.ldVxDT (fieldX w))
  | 0x0A => .ok (.ldVxK (fieldX w))
  | 0x15 => .ok (.ldDTVx (fieldX w))
  | 0x18 => .ok (.ldSTVx (fieldX w))
  | 0x1E => .ok (.addI (fieldX w))
  | 0x29 => .ok (.ldF (fieldX w))
  | 0x33 => .ok (.ldB (fieldX w))
  | 0x55 => .ok (.storeRegs (fieldX w))
  | 0x65 => .ok (.loadRegs (fieldX w))
  | _ => .error (.invalidOpcode w)

/-- Decoding is a total, pure function of the word (30_encoding.md R95); a word of no row is
rejected as an invalid opcode (R100). -/
def decodeWord (w : Word) : Except DecodeError Instr :=
  match (fieldOp w).toNat with
  | 0x0 => decodeFamily0 w
  | 0x1 => .ok (.jp (fieldNNN w))
  | 0x2 => .ok (.call (fieldNNN w))
  | 0x3 => .ok (.seImm (fieldX w) (fieldNN w))
  | 0x4 => .ok (.sneImm (fieldX w) (fieldNN w))
  | 0x5 => decodeIfNZero w (.seReg (fieldX w) (fieldY w))
  | 0x6 => .ok (.ldImm (fieldX w) (fieldNN w))
  | 0x7 => .ok (.addImm (fieldX w) (fieldNN w))
  | 0x8 => decodeFamily8 w
  | 0x9 => decodeIfNZero w (.sneReg (fieldX w) (fieldY w))
  | 0xA => .ok (.ldI (fieldNNN w))
  | 0xB => .ok (.jpV0 (fieldNNN w))
  | 0xC => .ok (.rnd (fieldX w) (fieldNN w))
  | 0xD => .ok (.drw (fieldX w) (fieldY w) (fieldN w))
  | 0xE => decodeFamilyE w
  | _ => decodeFamilyF w

/-- Two bytes joined big-endian: the byte at the lower address is the more significant half
(20_memory.md R62). -/
def joinBytes (hi lo : Byte) : Word := hi ++ lo

/-- Decode the instruction at the head of a byte stream, answering it with the bytes after it. -/
def decode : List Byte → Except DecodeError (Instr × List Byte)
  | hi :: lo :: rest =>
    match decodeWord (joinBytes hi lo) with
    | .ok i => .ok (i, rest)
    | .error e => .error e
  | _ => .error .truncated

/-! ### The encoder (30_encoding.md R92, R94) -/

/-- Format `A`: `op`, `nnn`. -/
def wordA (op : BitVec 4) (nnn : Addr) : Word := op ++ nnn

/-- Format `XI`, and with a fixed `nn` format `XF`: `op`, `x`, `nn`. -/
def wordXI (op : BitVec 4) (x : RegIndex) (nn : Byte) : Word := op ++ x ++ nn

/-- Format `XYN`, and with a fixed `n` format `XY`: `op`, `x`, `y`, `n`. -/
def wordXYN (op : BitVec 4) (x y : RegIndex) (n : BitVec 4) : Word := op ++ x ++ y ++ n

/-- The word of an instruction, from the patterns of 30_encoding.md R94. -/
def encodeWord : Instr → Word
  | .cls => 0x00E0#16
  | .ret => 0x00EE#16
  | .jp nnn => wordA 0x1#4 nnn
  | .call nnn => wordA 0x2#4 nnn
  | .seImm x nn => wordXI 0x3#4 x nn
  | .sneImm x nn => wordXI 0x4#4 x nn
  | .seReg x y => wordXYN 0x5#4 x y 0x0#4
  | .ldImm x nn => wordXI 0x6#4 x nn
  | .addImm x nn => wordXI 0x7#4 x nn
  | .ldReg x y => wordXYN 0x8#4 x y 0x0#4
  | .orReg x y => wordXYN 0x8#4 x y 0x1#4
  | .andReg x y => wordXYN 0x8#4 x y 0x2#4
  | .xorReg x y => wordXYN 0x8#4 x y 0x3#4
  | .addReg x y => wordXYN 0x8#4 x y 0x4#4
  | .subReg x y => wordXYN 0x8#4 x y 0x5#4
  | .shr x y => wordXYN 0x8#4 x y 0x6#4
  | .subnReg x y => wordXYN 0x8#4 x y 0x7#4
  | .shl x y => wordXYN 0x8#4 x y 0xE#4
  | .sneReg x y => wordXYN 0x9#4 x y 0x0#4
  | .ldI nnn => wordA 0xA#4 nnn
  | .jpV0 nnn => wordA 0xB#4 nnn
  | .rnd x nn => wordXI 0xC#4 x nn
  | .drw x y n => wordXYN 0xD#4 x y n
  | .skp x => wordXI 0xE#4 x 0x9E#8
  | .sknp x => wordXI 0xE#4 x 0xA1#8
  | .ldVxDT x => wordXI 0xF#4 x 0x07#8
  | .ldVxK x => wordXI 0xF#4 x 0x0A#8
  | .ldDTVx x => wordXI 0xF#4 x 0x15#8
  | .ldSTVx x => wordXI 0xF#4 x 0x18#8
  | .addI x => wordXI 0xF#4 x 0x1E#8
  | .ldF x => wordXI 0xF#4 x 0x29#8
  | .ldB x => wordXI 0xF#4 x 0x33#8
  | .storeRegs x => wordXI 0xF#4 x 0x55#8
  | .loadRegs x => wordXI 0xF#4 x 0x65#8

/-- The high and the low byte of a word, in the order they lie in memory (20_memory.md R62). -/
def wordBytes (w : Word) : List Byte := [w.extractLsb' 8 8, w.extractLsb' 0 8]

/-- The two bytes of an instruction, in memory order (30_encoding.md R90). -/
def encode (i : Instr) : List Byte := wordBytes (encodeWord i)

/-! ### The opcode map (30_encoding.md R94) -/

/-- One row of the opcode map: a word `w` belongs to the row when `w &&& mask = value`. -/
structure OpcodeRow where
  pattern : String
  value : Word
  mask : Word
  deriving DecidableEq, Repr

/-- Does the word belong to the row? -/
def rowMatches (w : Word) (r : OpcodeRow) : Bool := decide (w &&& r.mask = r.value)

/-- The row an instruction belongs to. -/
def rowOf : Instr → OpcodeRow
  | .cls => ⟨"00E0", 0x00E0#16, 0xFFFF#16⟩
  | .ret => ⟨"00EE", 0x00EE#16, 0xFFFF#16⟩
  | .jp _ => ⟨"1nnn", 0x1000#16, 0xF000#16⟩
  | .call _ => ⟨"2nnn", 0x2000#16, 0xF000#16⟩
  | .seImm _ _ => ⟨"3xnn", 0x3000#16, 0xF000#16⟩
  | .sneImm _ _ => ⟨"4xnn", 0x4000#16, 0xF000#16⟩
  | .seReg _ _ => ⟨"5xy0", 0x5000#16, 0xF00F#16⟩
  | .ldImm _ _ => ⟨"6xnn", 0x6000#16, 0xF000#16⟩
  | .addImm _ _ => ⟨"7xnn", 0x7000#16, 0xF000#16⟩
  | .ldReg _ _ => ⟨"8xy0", 0x8000#16, 0xF00F#16⟩
  | .orReg _ _ => ⟨"8xy1", 0x8001#16, 0xF00F#16⟩
  | .andReg _ _ => ⟨"8xy2", 0x8002#16, 0xF00F#16⟩
  | .xorReg _ _ => ⟨"8xy3", 0x8003#16, 0xF00F#16⟩
  | .addReg _ _ => ⟨"8xy4", 0x8004#16, 0xF00F#16⟩
  | .subReg _ _ => ⟨"8xy5", 0x8005#16, 0xF00F#16⟩
  | .shr _ _ => ⟨"8xy6", 0x8006#16, 0xF00F#16⟩
  | .subnReg _ _ => ⟨"8xy7", 0x8007#16, 0xF00F#16⟩
  | .shl _ _ => ⟨"8xyE", 0x800E#16, 0xF00F#16⟩
  | .sneReg _ _ => ⟨"9xy0", 0x9000#16, 0xF00F#16⟩
  | .ldI _ => ⟨"Annn", 0xA000#16, 0xF000#16⟩
  | .jpV0 _ => ⟨"Bnnn", 0xB000#16, 0xF000#16⟩
  | .rnd _ _ => ⟨"Cxnn", 0xC000#16, 0xF000#16⟩
  | .drw _ _ _ => ⟨"Dxyn", 0xD000#16, 0xF000#16⟩
  | .skp _ => ⟨"Ex9E", 0xE09E#16, 0xF0FF#16⟩
  | .sknp _ => ⟨"ExA1", 0xE0A1#16, 0xF0FF#16⟩
  | .ldVxDT _ => ⟨"Fx07", 0xF007#16, 0xF0FF#16⟩
  | .ldVxK _ => ⟨"Fx0A", 0xF00A#16, 0xF0FF#16⟩
  | .ldDTVx _ => ⟨"Fx15", 0xF015#16, 0xF0FF#16⟩
  | .ldSTVx _ => ⟨"Fx18", 0xF018#16, 0xF0FF#16⟩
  | .addI _ => ⟨"Fx1E", 0xF01E#16, 0xF0FF#16⟩
  | .ldF _ => ⟨"Fx29", 0xF029#16, 0xF0FF#16⟩
  | .ldB _ => ⟨"Fx33", 0xF033#16, 0xF0FF#16⟩
  | .storeRegs _ => ⟨"Fx55", 0xF055#16, 0xF0FF#16⟩
  | .loadRegs _ => ⟨"Fx65", 0xF065#16, 0xF0FF#16⟩

/-- The whole map, one row per instruction, in the order of 30_encoding.md R94. -/
def opcodeRows : List OpcodeRow :=
  [ rowOf .cls, rowOf .ret, rowOf (.jp 0), rowOf (.call 0), rowOf (.seImm 0 0), rowOf (.sneImm 0 0),
    rowOf (.seReg 0 0), rowOf (.ldImm 0 0), rowOf (.addImm 0 0), rowOf (.ldReg 0 0),
    rowOf (.orReg 0 0), rowOf (.andReg 0 0), rowOf (.xorReg 0 0), rowOf (.addReg 0 0),
    rowOf (.subReg 0 0), rowOf (.shr 0 0), rowOf (.subnReg 0 0), rowOf (.shl 0 0),
    rowOf (.sneReg 0 0), rowOf (.ldI 0), rowOf (.jpV0 0), rowOf (.rnd 0 0), rowOf (.drw 0 0 0),
    rowOf (.skp 0), rowOf (.sknp 0), rowOf (.ldVxDT 0), rowOf (.ldVxK 0), rowOf (.ldDTVx 0),
    rowOf (.ldSTVx 0), rowOf (.addI 0), rowOf (.ldF 0), rowOf (.ldB 0), rowOf (.storeRegs 0),
    rowOf (.loadRegs 0) ]

/-! ### The host's question -/

/-- The instruction the decoder reads from a word given as the opcode table numbers its bits: bits
above `nbits` are zero, and the word lies in memory high byte first (20_memory.md R62). -/
def decodeTableWord (nbits w : Nat) : Option Instr :=
  match decode (wordBytes (BitVec.ofNat 16 (w % 2 ^ nbits))) with
  | .ok (i, _) => some i
  | .error _ => none

end Sys2Proof
end

