-- ==== Sys2Proof/Config.lean ====
section
/-! DEFINITION. What the spec leaves open: the font's address and bytes, which are parameters of the
machine (00_scope.md R7), and the random byte, which is a draw (41_load_imm.md R143). None of the
three has a body, so nothing can be proved of their values beyond their types. -/

namespace Sys2Proof

/-- The font has 16 glyphs of 5 bytes (00_scope.md R6). -/
def Config.fontSize : Nat := 80

/-- `FONT_BASE`, the address of the first font byte, OPEN within `0x000..0x1B0`
(00_scope.md R7, 92_eei_decisions.md D2; log entry 3). -/
opaque Config.fontBase : Fin 0x1B1

/-- `FONT_DATA[0..79]`, the font's bytes, OPEN (00_scope.md R7, 92_eei_decisions.md D3; log entry 3). -/
opaque Config.fontData : Fin 80 → Byte

/-- The byte on the random input at the `n`-th draw: a free value under no law
(41_load_imm.md R143, 92_eei_decisions.md D20; log entry 2). -/
opaque Config.randomByte : Nat → Byte

end Sys2Proof
end

