-- ==== Sys2Proof/Machine/State.lean ====
section
/-! DEFINITION. The architectural state (10_state.md), the reasons a step can stop
(60_exceptions.md R221, R222), the five transitions as data (60_exceptions.md R240) and the state
after reset (10_state.md R38). -/

namespace Sys2Proof.Machine

/-- A fault of `step` (60_exceptions.md R220 to R223). It changes no state. -/
inductive Fault where
  /-- Raised by `2nnn` only, when `SP = 16` (60_exceptions.md R221). Safe: the spec's own stop. -/
  | stackOverflow
  /-- Raised by `00EE` only, when `SP = 0` (60_exceptions.md R222). Safe: the spec's own stop. -/
  | stackUnderflow
  deriving DecidableEq, Repr

/-- Why an instruction has no meaning in the model. -/
inductive Refusal where
  /-- Raised by an arm of `exec` whose instruction has no meaning yet; no arm raises it. Safe. -/
  | notModelled (mnemonic : String)
  deriving DecidableEq, Repr

/-- The error result of `load` (70_reset_and_hazards.md R265). -/
inductive LoadError where
  /-- The program is longer than `MAX_PROGRAM`. -/
  | programTooLarge
  deriving DecidableEq, Repr

/-- The five atomic transitions of the machine (00_scope.md R8, 60_exceptions.md R240). -/
inductive Transition where
  /-- The interpreter's `step` (30_encoding.md R105). -/
  | step
  /-- The timer engine's `tick` (60_exceptions.md R235). -/
  | tick
  /-- The input source's `key_event(k, pressed)` (60_exceptions.md R237). -/
  | keyEvent (k : KeyIndex) (pressed : Bool)
  /-- The host's `load(program)` (70_reset_and_hazards.md R265). -/
  | load (program : List Byte)
  /-- The host's `reset` (70_reset_and_hazards.md R260, R261). -/
  | reset
  deriving DecidableEq, Repr

/-- `MEM`, held sparsely: an address that is not listed reads as its reset contents. -/
abbrev Memory := List Host.Cell

/-- `FB`, 32 rows of 64 pixels each (10_state.md R32; log entry 14). -/
abbrev FrameBuffer := Vector (Vector Bool 64) 32

/-- The machine's state: every piece that 10_state.md names, and two fields of the model's own. -/
structure State where
  /-- `V[0]..V[15]`; `V[15]` is `VF` (R20, R21). -/
  v : Vector Byte 16
  /-- `PC` (R22, R23). -/
  pc : Word
  /-- `I` (R27). -/
  index : Word
  /-- `SP`, the number of return addresses held, 0..16 (R28). -/
  sp : Fin 17
  /-- `STACK[0]..STACK[15]` (R28, R29). -/
  stack : Vector Word 16
  /-- `DT`, the delay timer (R30). -/
  dt : Byte
  /-- `ST`, the sound timer (R30). -/
  st : Byte
  /-- `MEM` (R31). -/
  mem : Memory
  /-- `FB` (R32). -/
  fb : FrameBuffer
  /-- `KEY[0]..KEY[15]` (R34). -/
  keys : Vector Bool 16
  /-- `WAIT`, the destination of a pending `Fx0A` (R36). -/
  wait : Option RegIndex
  /-- `KLATCH`, the first key reported while waiting (R36). -/
  klatch : Option KeyIndex
  /-- The model's own: how many random bytes have been drawn (log entry 2). -/
  draws : Nat
  /-- The model's own: the transitions that come next, oldest first; when there are none the
  interpreter steps (log entry 1). -/
  requests : List Transition
  deriving DecidableEq, Repr

/-- The state after the `reset` transition (10_state.md R38, 70_reset_and_hazards.md R260). Memory
lists nothing: it reads as its reset contents. -/
def State.reset : State where
  v := Vector.replicate 16 0
  pc := 0x0200
  index := 0
  sp := 0
  stack := Vector.replicate 16 0
  dt := 0
  st := 0
  mem := []
  fb := Vector.replicate 32 (Vector.replicate 64 false)
  keys := Vector.replicate 16 false
  wait := none
  klatch := none
  draws := 0
  requests := []

end Sys2Proof.Machine
end

