-- ==== Sys2Proof/Machine/Ops.lean ====
section
/-! DEFINITION. The named operations over registers, memory, stack, framebuffer and keys, raising a
fault, and the transitions that are not steps: `tick`, `key_event`, `load` and a later `reset`. -/

namespace Sys2Proof.Machine

/-- What a meaning answers: a next state, a fault or a refusal. -/
abbrev Result := Host.Outcome State Fault Refusal

/-! ### General registers (10_state.md R20) -/

/-- `V[x]`. -/
def State.readV (s : State) (x : RegIndex) : Byte :=
  s.v[x.toNat]'(by have := x.isLt; omega)

/-- `V[x] <- b`. -/
def State.writeV (s : State) (x : RegIndex) (b : Byte) : State :=
  { s with v := s.v.set x.toNat b (by have := x.isLt; omega) }

/-- Write the bytes of a list to `V[k], V[k+1], …`, ascending (46_index_memory.md R205). -/
def State.writeVs : Nat → List Byte → State → State
  | _, [], s => s
  | k, b :: bs, s => State.writeVs (k + 1) bs (s.writeV (BitVec.ofNat 4 k) b)

/-- `V[0]..V[n-1]`, ascending (46_index_memory.md R204). -/
def State.readVs (s : State) (n : Nat) : List Byte :=
  (List.range n).map fun k => s.readV (BitVec.ofNat 4 k)

/-! ### Program counter (10_state.md R22 to R26) -/

/-- `PC <- w`. -/
def State.setPc (s : State) (w : Word) : State := { s with pc := w }

/-- The default advance, `PC <- PC + 2` (10_state.md R24). -/
def State.advance (s : State) : State := s.setPc (s.pc + 2)

/-- A skip: `PC + 4` when the condition holds, else `PC + 2` (10_state.md R24). -/
def State.skipIf (s : State) (c : Bool) : State := if c then s.setPc (s.pc + 4) else s.advance

/-- Halted exactly when `PC > 0x0FFE` (10_state.md R26). -/
def State.halted (s : State) : Bool := decide (0x0FFE < s.pc.toNat)

/-! ### Special registers (10_state.md R27, R30) -/

/-- `I <- w`. -/
def State.setIndex (s : State) (w : Word) : State := { s with index := w }

/-- `DT <- b`. -/
def State.setDT (s : State) (b : Byte) : State := { s with dt := b }

/-- `ST <- b`. -/
def State.setST (s : State) (b : Byte) : State := { s with st := b }

/-! ### Call stack (10_state.md R28, R29) -/

/-- Push a return address; `none` when 16 are held. -/
def State.push (s : State) (r : Word) : Option State :=
  if h : s.sp.val < 16 then
    some { s with stack := s.stack.set s.sp.val r h, sp := ⟨s.sp.val + 1, by omega⟩ }
  else none

/-- Pop a return address, leaving the entry in place; `none` when none is held. -/
def State.pop (s : State) : Option (Word × State) :=
  if h : 0 < s.sp.val then
    some (s.stack[s.sp.val - 1]'(by omega), { s with sp := ⟨s.sp.val - 1, by omega⟩ })
  else none

/-! ### Memory (20_memory.md) -/

/-- What an address reads as while nothing has been written there: the reset contents of
10_state.md R38, that is the font at `FONT_BASE` and zero elsewhere. The font lies below `0x200`. -/
def Memory.unlisted (a : Nat) : Byte :=
  if 0x200 ≤ a then 0
  else if h : Config.fontBase.val ≤ a ∧ a < Config.fontBase.val + 80 then
    Config.fontData ⟨a - Config.fontBase.val, by omega⟩
  else 0

/-- Read one byte. -/
def Memory.read : Memory → Nat → Byte
  | [], a => Memory.unlisted a
  | c :: m, a => if c.1 = a then c.2 else Memory.read m a

/-- Take an address out of the list, so that it reads as its reset contents. -/
def Memory.erase (m : Memory) (a : Nat) : Memory := m.filter fun c => c.1 != a

/-- Put a cell before the first cell of a higher address. -/
def Memory.insert (a : Nat) (b : Byte) : Memory → Memory
  | [] => [(a, b)]
  | c :: m => if a < c.1 then (a, b) :: c :: m else c :: Memory.insert a b m

/-- Write one byte, keeping the canonical form: what an unlisted address reads as is not listed. -/
def Memory.write (m : Memory) (a : Nat) (b : Byte) : Memory :=
  if b = Memory.unlisted a then m.erase a else Memory.insert a b (m.erase a)

/-- The canonical form from address `lo` on. -/
def Memory.wfFrom : Nat → Memory → Bool
  | _, [] => true
  | lo, c :: m =>
    decide (lo ≤ c.1) && decide (c.1 < 4096) && decide (c.2 ≠ Memory.unlisted c.1) &&
      Memory.wfFrom (c.1 + 1) m

/-- The canonical form: addresses strictly rising, inside the 4096 bytes, and no cell equal to what
its address reads as unlisted. -/
def Memory.wf (m : Memory) : Bool := Memory.wfFrom 0 m

/-- The effective data address `ea(k) = (I + k) & 0xFFF` past a base (20_memory.md R66). -/
def ea (base : Word) (k : Nat) : Nat := (base.toNat + k) % 4096

/-- Write the bytes of a list at `ea(k), ea(k+1), …`, ascending (20_memory.md R63). -/
def Memory.writeBlock (base : Word) : Nat → List Byte → Memory → Memory
  | _, [], m => m
  | k, b :: bs, m => Memory.writeBlock base (k + 1) bs (m.write (ea base k) b)

/-- `MemRead(a, 1)`. -/
def State.readMem (s : State) (a : Nat) : Byte := s.mem.read a

/-- The `n` bytes at `ea(0)..ea(n-1)` (20_memory.md R65). -/
def State.readBlock (s : State) (n : Nat) : List Byte :=
  (List.range n).map fun k => s.readMem (ea s.index k)

/-- Store the bytes of a list at `ea(0), ea(1), …` (20_memory.md R65). -/
def State.writeBlock (s : State) (bs : List Byte) : State :=
  { s with mem := s.mem.writeBlock s.index 0 bs }

/-- `MemRead(PC, 2)`: the instruction word, big-endian; used only when the machine is not halted, so
both addresses exist (20_memory.md R62). -/
def State.fetchWord (s : State) : Word :=
  joinBytes (s.readMem s.pc.toNat) (s.readMem (s.pc.toNat + 1))

/-! ### Framebuffer (10_state.md R32, R33) -/

/-- `FB(cx, cy)`; the coordinates wrap before they index the grid. -/
def FrameBuffer.pixel (fb : FrameBuffer) (cx cy : Nat) : Bool :=
  (fb[cy % 32]'(by omega))[cx % 64]'(by omega)

/-- `FB(cx, cy) <- b`. -/
def FrameBuffer.setPixel (fb : FrameBuffer) (cx cy : Nat) (b : Bool) : FrameBuffer :=
  fb.set (cy % 32) ((fb[cy % 32]'(by omega)).set (cx % 64) b (by omega)) (by omega)

/-- Every pixel off. -/
def FrameBuffer.blank : FrameBuffer := Vector.replicate 32 (Vector.replicate 64 false)

/-- The framebuffer read port (60_exceptions.md R239). -/
def State.pixel (s : State) (cx cy : Nat) : Bool := FrameBuffer.pixel s.fb cx cy

/-- Replace the framebuffer. -/
def State.setFB (s : State) (fb : FrameBuffer) : State := { s with fb := fb }

/-! ### Keys (10_state.md R34, R36) -/

/-- `KEY[k]`, the level of the key. -/
def State.keyDown (s : State) (k : KeyIndex) : Bool :=
  s.keys[k.toNat]'(by have := k.isLt; omega)

/-- `WAIT` and `KLATCH` together. -/
def State.setWait (s : State) (w : Option RegIndex) (k : Option KeyIndex) : State :=
  { s with wait := w, klatch := k }

/-- The step that completes a pending `Fx0A` (44_keys.md R183). -/
def State.completeWait (s : State) (x : RegIndex) (k : KeyIndex) : State :=
  ((s.writeV x (k.setWidth 8)).advance).setWait none none

/-! ### The random input (10_state.md R35) -/

/-- The byte on the random input now (log entry 2). -/
def State.randomByte (s : State) : Byte := Config.randomByte s.draws

/-- One byte has been drawn: the next draw is a fresh one. -/
def State.countDraw (s : State) : State := { s with draws := s.draws + 1 }

/-! ### Faults (60_exceptions.md R223) -/

/-- `raise Fault(kind)`: the step ends and no state changes (60_exceptions.md R223, R230). This is the
machine's whole exception mechanism: nothing is saved and there is no handler. -/
def raiseFault (f : Fault) : Result := .fault f

/-! ### The transitions that are not steps -/

/-- One timer, decremented when it is not zero (60_exceptions.md R235). -/
def countDown (t : Byte) : Byte := if t = 0 then 0 else t - 1

/-- `tick` (60_exceptions.md R235). -/
def State.tick (s : State) : State := { s with dt := countDown s.dt, st := countDown s.st }

/-- The latch after `key_event(k, pressed)`: the first press reported while waiting. -/
def latchAfter (wait : Option RegIndex) (klatch : Option KeyIndex) (k : KeyIndex)
    (pressed : Bool) : Option KeyIndex :=
  if pressed && wait.isSome && klatch.isNone then some k else klatch

/-- `key_event(k, pressed)` (60_exceptions.md R237). -/
def State.keyEvent (s : State) (k : KeyIndex) (pressed : Bool) : State :=
  { s with
    keys := s.keys.set k.toNat pressed (by have := k.isLt; omega)
    klatch := latchAfter s.wait s.klatch k pressed }

/-- `PROGRAM_BASE`, the load and entry address (00_scope.md R6). -/
def programBase : Word := 0x0200

/-- `load(program)` (70_reset_and_hazards.md R265). A program of at most 3583 bytes ends at `0xFFE`,
so no address wraps. -/
def State.load (s : State) (program : List Byte) : Except LoadError State :=
  if programWellFormed program then
    .ok { s with mem := s.mem.writeBlock programBase 0 program }
  else .error .programTooLarge

/-- The state after `load`, which a failed load does not change (70_reset_and_hazards.md R265). -/
def State.afterLoad (s : State) (program : List Byte) : State :=
  match s.load program with
  | .ok t => t
  | .error _ => s

/-- `reset` issued at a transition boundary (70_reset_and_hazards.md R261): the reset state, with the
model's own two fields carried on, so that later random draws are fresh (log entry 12). -/
def State.restart (s : State) : State :=
  { State.reset with draws := s.draws, requests := s.requests }

/-- Replace the transitions that come next. -/
def State.setRequests (s : State) (ts : List Transition) : State := { s with requests := ts }

end Sys2Proof.Machine
end

