-- ==== Sys2Proof/Machine/Flags.lean ====
section
/-! DEFINITION. The one flag, `VF` (10_state.md R21): how each flag is computed from the latched
operands, and the order in which the flag and the result are written (42_alu.md R150). -/

namespace Sys2Proof.Machine

/-- `VF` is `V[15]`. -/
def flagReg : RegIndex := 15

/-- A flag as the byte written to `VF`: all eight bits, `0x00` or `0x01` (10_state.md R21). -/
def flagByte (f : Bool) : Byte := if f then 1 else 0

/-- Carry out of the 8-bit add (42_alu.md R155). -/
def carryOut (a b : Byte) : Bool := decide (255 < a.toNat + b.toNat)

/-- NOT borrow of `a - b`; equality is no borrow (42_alu.md R156, R158). -/
def noBorrow (a b : Byte) : Bool := decide (b.toNat ≤ a.toNat)

/-- The bit a right shift by one discards (42_alu.md R157). -/
def shiftedOutLow (a : Byte) : Bool := a.getLsbD 0

/-- The bit a left shift by one discards (42_alu.md R159). -/
def shiftedOutHigh (a : Byte) : Bool := a.getLsbD 7

/-- `VF <- f`, then `V[x] <- r`: with `x = 15` the result stays in `VF` (42_alu.md R150). -/
def State.writeFlagThenResult (s : State) (x : RegIndex) (f : Bool) (r : Byte) : State :=
  (s.writeV flagReg (flagByte f)).writeV x r

end Sys2Proof.Machine
end

