-- ==== Sys2Proof/Machine/Alu.lean ====
section
/-! DEFINITION. The register-to-register family `8xy_` (42_alu.md). Operands are read before any
write (R150, 00_scope.md R11). -/

namespace Sys2Proof.Machine

/-- `8xy0` move (R151). -/
def execLdReg (x y : RegIndex) (s : State) : Result :=
  .next (s.writeV x (s.readV y)).advance

/-- `8xy1` OR; `VF` is not written (R152). -/
def execOrReg (x y : RegIndex) (s : State) : Result :=
  .next (s.writeV x (s.readV x ||| s.readV y)).advance

/-- `8xy2` AND; `VF` is not written (R153). -/
def execAndReg (x y : RegIndex) (s : State) : Result :=
  .next (s.writeV x (s.readV x &&& s.readV y)).advance

/-- `8xy3` XOR; `VF` is not written (R154). -/
def execXorReg (x y : RegIndex) (s : State) : Result :=
  .next (s.writeV x (s.readV x ^^^ s.readV y)).advance

/-- `8xy4` add, `VF` the carry out (R155). -/
def execAddReg (x y : RegIndex) (s : State) : Result :=
  let a := s.readV x
  let b := s.readV y
  .next (s.writeFlagThenResult x (carryOut a b) (a + b)).advance

/-- `8xy5` subtract `V[x] - V[y]`, `VF` NOT borrow (R156). -/
def execSubReg (x y : RegIndex) (s : State) : Result :=
  let a := s.readV x
  let b := s.readV y
  .next (s.writeFlagThenResult x (noBorrow a b) (a - b)).advance

/-- `8xy6` shift right by one, in place; `V[y]` is neither read nor written (R157). -/
def execShr (x _y : RegIndex) (s : State) : Result :=
  let a := s.readV x
  .next (s.writeFlagThenResult x (shiftedOutLow a) (a >>> 1)).advance

/-- `8xy7` reverse subtract `V[y] - V[x]`, `VF` NOT borrow (R158). -/
def execSubnReg (x y : RegIndex) (s : State) : Result :=
  let a := s.readV x
  let b := s.readV y
  .next (s.writeFlagThenResult x (noBorrow b a) (b - a)).advance

/-- `8xyE` shift left by one, in place; `V[y]` is neither read nor written (R159). -/
def execShl (x _y : RegIndex) (s : State) : Result :=
  let a := s.readV x
  .next (s.writeFlagThenResult x (shiftedOutHigh a) (a <<< 1)).advance

end Sys2Proof.Machine
end

