-- ==== Sys2Proof/Machine/Operands.lean ====
section
/-! DEFINITION. The operand forms (30_encoding.md R93): a register, an immediate taken as it stands,
an absolute address, the key selected by a register, and the `I`-based memory operand, which is
`ea` of Machine/Ops.lean. -/

namespace Sys2Proof.Machine

/-- `zext_16(nnn)`: a 12-bit address field as a 16-bit value (30_encoding.md R93). -/
def addrOperand (nnn : Addr) : Word := nnn.setWidth 16

/-- `zext_16(V[x])` (00_scope.md R10). -/
def wideOperand (b : Byte) : Word := b.setWidth 16

/-- `V[x] & 0xF`: the key that a register selects (44_keys.md R180). -/
def keyOperand (b : Byte) : KeyIndex := b.setWidth 4

/-- `nnn + V[0]`, on 16 bits with no 12-bit wrap (40_control.md R123). -/
def offsetTarget (nnn : Addr) (v0 : Byte) : Word := addrOperand nnn + wideOperand v0

/-- `(I + V[x]) & 0x0FFF` (46_index_memory.md R200). -/
def indexSum (i : Word) (b : Byte) : Word := (i + wideOperand b) &&& 0x0FFF#16

/-- `FONT_BASE + 5 * V[x]`, on the full 8-bit value (46_index_memory.md R201). -/
def glyphAddress (b : Byte) : Word := BitVec.ofNat 16 (Config.fontBase.val + 5 * b.toNat)

/-- The three decimal digits of a byte, hundreds first (46_index_memory.md R202). -/
def bcdDigits (b : Byte) : List Byte :=
  [BitVec.ofNat 8 (b.toNat / 100), BitVec.ofNat 8 (b.toNat / 10 % 10), BitVec.ofNat 8 (b.toNat % 10)]

end Sys2Proof.Machine
end

