-- ==== Sys2Proof/Machine/Control.lean ====
section
/-! DEFINITION. Control transfer instructions (40_control.md). -/

namespace Sys2Proof.Machine

/-- `00EE` return (R120): `StackUnderflow` when nothing is held, else the popped value as it is. -/
def execRet (s : State) : Result :=
  match s.pop with
  | none => raiseFault .stackUnderflow
  | some (r, t) => .next (t.setPc r)

/-- `1nnn` jump (R121). -/
def execJp (nnn : Addr) (s : State) : Result := .next (s.setPc (addrOperand nnn))

/-- `2nnn` call (R122): pushes `PC + 2`, or `StackOverflow` when 16 are held. -/
def execCall (nnn : Addr) (s : State) : Result :=
  match s.push (s.pc + 2) with
  | none => raiseFault .stackOverflow
  | some t => .next (t.setPc (addrOperand nnn))

/-- `3xnn` skip if equal to immediate (R124). -/
def execSeImm (x : RegIndex) (nn : Byte) (s : State) : Result :=
  .next (s.skipIf (s.readV x == nn))

/-- `4xnn` skip if not equal to immediate (R125). -/
def execSneImm (x : RegIndex) (nn : Byte) (s : State) : Result :=
  .next (s.skipIf (s.readV x != nn))

/-- `5xy0` skip if registers equal (R126). -/
def execSeReg (x y : RegIndex) (s : State) : Result :=
  .next (s.skipIf (s.readV x == s.readV y))

/-- `9xy0` skip if registers not equal (R127). -/
def execSneReg (x y : RegIndex) (s : State) : Result :=
  .next (s.skipIf (s.readV x != s.readV y))

/-- `Bnnn` jump with offset `V[0]` (R123). -/
def execJpV0 (nnn : Addr) (s : State) : Result :=
  .next (s.setPc (offsetTarget nnn (s.readV 0)))

end Sys2Proof.Machine
end

