-- ==== Sys2Proof/Machine/Display.lean ====
section
/-! DEFINITION. The sprite engine, the collision detector and the two framebuffer instructions
(43_display.md). -/

namespace Sys2Proof.Machine

/-- The sprite engine at work: the framebuffer so far, and whether a pixel has gone from on to off. -/
structure Canvas where
  fb : FrameBuffer
  collision : Bool
  deriving DecidableEq, Repr

/-- XOR one bit onto the pixel `(cx, cy)`, comparing the pixel's prior value with its new one
(R171, R173). -/
def xorPixel (c : Canvas) (cx cy : Nat) (bit : Bool) : Canvas :=
  let old := c.fb.pixel cx cy
  let new := old ^^ bit
  { fb := c.fb.setPixel cx cy new, collision := c.collision || (old && !new) }

/-- Bit position `b` of a sprite row, most significant first (R171, 00_scope.md R9). -/
def spriteBit (row : Byte) (b : Nat) : Bool := row.getLsbD (7 - b)

/-- XOR the bits at positions `0..n-1` of one row; the origin is not reduced before the sums (R171). -/
def drawBits (ox cy : Nat) (row : Byte) : Nat → Canvas → Canvas
  | 0, c => c
  | n + 1, c =>
    let d := drawBits ox cy row n c
    xorPixel d ((ox + n) % 64) (cy % 32) (spriteBit row n)

/-- XOR the rows of a sprite, the head row at `oy` and each next one below (R171). -/
def drawRows (ox : Nat) : Nat → List Byte → Canvas → Canvas
  | _, [], c => c
  | oy, row :: rows, c => drawRows ox (oy + 1) rows (drawBits ox oy row 8 c)

/-- `draw_sprite(origin_x, origin_y, sprite_rows)` (R171). -/
def drawSprite (ox oy : Byte) (rows : List Byte) (fb : FrameBuffer) : Canvas :=
  drawRows ox.toNat oy.toNat rows { fb := fb, collision := false }

/-- `00E0` clear screen; `VF` is not written (R170). -/
def execCls (s : State) : Result := .next (s.setFB FrameBuffer.blank).advance

/-- `Dxyn` draw sprite (R172): the `n` bytes at `I` are drawn at `(V[x], V[y])`, the origin latched
before `VF` is written with the collision result. -/
def execDrw (x y : RegIndex) (n : BitVec 4) (s : State) : Result :=
  let c := drawSprite (s.readV x) (s.readV y) (s.readBlock n.toNat) s.fb
  .next ((s.setFB c.fb).writeV flagReg (flagByte c.collision)).advance

end Sys2Proof.Machine
end

