-- ==== Sys2Proof/Machine/IndexMemory.lean ====
section
/-! DEFINITION. Index arithmetic, font address, BCD, block store and load (46_index_memory.md).
`I` is left unchanged by the three that access memory (R203). -/

namespace Sys2Proof.Machine

/-- `Fx1E` add to index, modulo 4096; `VF` is not written (R200). -/
def execAddI (x : RegIndex) (s : State) : Result :=
  .next (s.setIndex (indexSum s.index (s.readV x))).advance

/-- `Fx29` font glyph address (R201). -/
def execLdF (x : RegIndex) (s : State) : Result :=
  .next (s.setIndex (glyphAddress (s.readV x))).advance

/-- `Fx33` store binary-coded decimal at `ea(0), ea(1), ea(2)` (R202). -/
def execLdB (x : RegIndex) (s : State) : Result :=
  .next (s.writeBlock (bcdDigits (s.readV x))).advance

/-- `Fx55` block store of `V[0]..V[x]`, `x` inclusive (R204). -/
def execStoreRegs (x : RegIndex) (s : State) : Result :=
  .next (s.writeBlock (s.readVs (x.toNat + 1))).advance

/-- `Fx65` block load of `V[0]..V[x]`, `x` inclusive (R205). -/
def execLoadRegs (x : RegIndex) (s : State) : Result :=
  .next (State.writeVs 0 (s.readBlock (x.toNat + 1)) s).advance

end Sys2Proof.Machine
end

