-- ==== Sys2Proof/Machine/Keys.lean ====
section
/-! DEFINITION. Key instructions (44_keys.md). The completion of `Fx0A` by a later step is
`State.completeWait`, which the step cycle applies (R183). -/

namespace Sys2Proof.Machine

/-- `Ex9E` skip if the key is pressed (R180). -/
def execSkp (x : RegIndex) (s : State) : Result :=
  .next (s.skipIf (s.keyDown (keyOperand (s.readV x))))

/-- `ExA1` skip if the key is not pressed (R181). -/
def execSknp (x : RegIndex) (s : State) : Result :=
  .next (s.skipIf (!s.keyDown (keyOperand (s.readV x))))

/-- `Fx0A`, the step that executes it: the machine begins to wait, and neither `PC` nor `V[x]`
changes (R182). -/
def execLdVxK (x : RegIndex) (s : State) : Result := .next (s.setWait (some x) none)

end Sys2Proof.Machine
end

