-- ==== Sys2Proof/Machine/LoadImm.lean ====
section
/-! DEFINITION. Immediate load, immediate add, index load, random (41_load_imm.md). -/

namespace Sys2Proof.Machine

/-- `6xnn` load immediate (R140). -/
def execLdImm (x : RegIndex) (nn : Byte) (s : State) : Result :=
  .next (s.writeV x nn).advance

/-- `7xnn` add immediate, wrapping, with no flag (R141). -/
def execAddImm (x : RegIndex) (nn : Byte) (s : State) : Result :=
  .next (s.writeV x (s.readV x + nn)).advance

/-- `Annn` load index (R142). -/
def execLdI (nnn : Addr) (s : State) : Result :=
  .next (s.setIndex (addrOperand nnn)).advance

/-- `Cxnn` random (R143): one free byte is drawn and masked with `nn` (log entry 2). -/
def execRnd (x : RegIndex) (nn : Byte) (s : State) : Result :=
  .next ((s.writeV x (s.randomByte &&& nn)).countDraw).advance

end Sys2Proof.Machine
end

