-- ==== Sys2Proof/Machine/Timers.lean ====
section
/-! DEFINITION. Timer access instructions (45_timers.md). -/

namespace Sys2Proof.Machine

/-- `Fx07` read delay timer (R190). -/
def execLdVxDT (x : RegIndex) (s : State) : Result := .next (s.writeV x s.dt).advance

/-- `Fx15` set delay timer (R191). -/
def execLdDTVx (x : RegIndex) (s : State) : Result := .next (s.setDT (s.readV x)).advance

/-- `Fx18` set sound timer (R192). -/
def execLdSTVx (x : RegIndex) (s : State) : Result := .next (s.setST (s.readV x)).advance

end Sys2Proof.Machine
end

