-- ==== Sys2Proof/Machine/Cycle.lean ====
section
/-! DEFINITION. The step cycle (30_encoding.md R105), the outcome a step reports
(60_exceptions.md R220), and the machine's transitions in the order the requests give
(60_exceptions.md R240). -/

namespace Sys2Proof.Machine

/-- The `step` transition: one fetch, decode, execute cycle, or what takes its place while a key is
awaited or the machine is halted (30_encoding.md R105, 60_exceptions.md R229). An invalid opcode
is a completed step that only advances (30_encoding.md R100). -/
def interpret (s : State) : Result :=
  match s.wait with
  | some x =>
    match s.klatch with
    | some k => .next (s.completeWait x k)
    | none => .next s
  | none =>
    if s.halted then .next s
    else
      match decodeWord s.fetchWord with
      | .ok i => exec i s
      | .error _ => .next s.advance

/-- What a `step` reports to the driving loop (60_exceptions.md R220). It is an output only. -/
inductive Report where
  /-- `Fault(kind)`. -/
  | fault (f : Fault)
  /-- `Ok(halted, awaiting, invalid)`; `invalid` holds the word and the address it came from. -/
  | ok (halted awaiting : Bool) (invalid : Option (Word × Word))
  /-- The model's own: the instruction has no meaning in the model; never reported. -/
  | refused (r : Refusal)
  deriving DecidableEq, Repr

/-- The diagnostic `InvalidOpcode(w, a)` of the step taken in this state, if there is one
(60_exceptions.md R224). -/
def invalidOpcodeAt (s : State) : Option (Word × Word) :=
  if s.wait.isNone && !s.halted then
    match decodeWord s.fetchWord with
    | .ok _ => none
    | .error _ => some (s.fetchWord, s.pc)
  else none

/-- The outcome of the `step` taken in this state (30_encoding.md R105, 60_exceptions.md R220). -/
def report (s : State) : Report :=
  match interpret s with
  | .fault f => .fault f
  | .refused r => .refused r
  | .next t => .ok (t.wait.isNone && t.halted) t.wait.isSome (invalidOpcodeAt s)

/-- The cause code of a fault, 0 for none (60_exceptions.md R226). -/
def causeCode : Option Fault → Nat
  | none => 0
  | some .stackOverflow => 1
  | some .stackUnderflow => 2

/-- One of the five transitions (60_exceptions.md R240). -/
def perform (t : Transition) (s : State) : Result :=
  match t with
  | .step => interpret s
  | .tick => .next s.tick
  | .keyEvent k pressed => .next (s.keyEvent k pressed)
  | .load program => .next (s.afterLoad program)
  | .reset => .next s.restart

/-- The next transition: the oldest request, or the interpreter's `step` when there is none
(60_exceptions.md R240; log entry 1). -/
def nextTransition (s : State) : Result :=
  match s.requests with
  | [] => interpret s
  | t :: ts => perform t (s.setRequests ts)

/-- The state with a word stored where the interpreter fetches next, nothing pending before it:
no request, no awaited key, and a program counter from which a fetch is possible (log entry 9). -/
def placeWord (s : State) (w : Word) : State :=
  let pc := if s.halted then programBase else s.pc
  { s with
    pc := pc
    wait := none
    klatch := none
    requests := []
    mem := s.mem.writeBlock pc 0 (wordBytes w) }

end Sys2Proof.Machine
end

