-- ==== Sys2Proof/Machine/Step.lean ====
section
/-! DEFINITION. One step of the whole machine, and the host's way of placing a word to be run. -/

namespace Sys2Proof.Machine

/-- One atomic transition of the machine (60_exceptions.md R240): the oldest requested one, or the
interpreter's `step` (30_encoding.md R105) when none is requested. -/
def step (s : State) : Host.Outcome State Fault Refusal :=
  nextTransition s

/-- `s` with a table word stored where the next step fetches (log entry 9). -/
def State.withFetchWord (s : State) (nbits w : Nat) : State :=
  placeWord s (BitVec.ofNat 16 (w % 2 ^ nbits))

end Sys2Proof.Machine
end

