-- ==== Sys2Proof/Safety.lean ====
section
/-! DEFINITION. The terms in which claims are stated: what an instruction may change (its frame),
the invariant of 10_state.md R37, a safe step, and the pixels a sprite covers. -/

namespace Sys2Proof

open Sys2Proof.Machine

/-- What an instruction may change, the program counter apart. Everything not named is kept. -/
structure Frame where
  /-- The general registers that may change. -/
  regs : List RegIndex := []
  /-- The addresses of the bytes that may change. -/
  stored : List Nat := []
  /-- `I` may change. -/
  index : Bool := false
  /-- `SP` and the stack entries may change. -/
  stack : Bool := false
  /-- `DT` may change. -/
  dt : Bool := false
  /-- `ST` may change. -/
  st : Bool := false
  /-- The framebuffer may change. -/
  screen : Bool := false
  /-- `WAIT` and `KLATCH` may change. -/
  keyWait : Bool := false
  /-- A random byte may be drawn (the model's own count of draws may change). -/
  draws : Bool := false
  deriving DecidableEq, Repr

/-- From `s` to `t` nothing has changed but the program counter and what the frame names. -/
structure Keeps (f : Frame) (s t : State) : Prop where
  regs : ∀ r, r ∉ f.regs → t.readV r = s.readV r
  memory : ∀ a, a ∉ f.stored → t.readMem a = s.readMem a
  index : f.index = false → t.index = s.index
  sp : f.stack = false → t.sp = s.sp
  stack : f.stack = false → t.stack = s.stack
  dt : f.dt = false → t.dt = s.dt
  st : f.st = false → t.st = s.st
  screen : f.screen = false → ∀ cx cy, t.pixel cx cy = s.pixel cx cy
  keys : ∀ k, t.keyDown k = s.keyDown k
  wait : f.keyWait = false → t.wait = s.wait
  klatch : f.keyWait = false → t.klatch = s.klatch
  draws : f.draws = false → t.draws = s.draws
  requests : t.requests = s.requests

/-- The invariant of the machine (10_state.md R37), clause by clause. Clauses (a), (d) and (g) hold by
the types of the fields. Clause `waitPc` is the model's own addition: a key is awaited only at
an address an instruction was fetched from (44_keys.md R182; log entry 8). -/
structure Inv (s : State) : Prop where
  /-- Memory is in its canonical form (log entry 11). -/
  memory : s.mem.wf = true
  /-- `I` in `0x000..0xFFF` (b). -/
  index : s.index.toNat ≤ 0xFFF
  /-- `PC` in `0x0000..0x10FE` (c). -/
  pc : s.pc.toNat ≤ 0x10FE
  /-- Every held return address in `0x0002..0x1000` (e). -/
  stack : ∀ j : Fin 16, j.val < s.sp.val →
    2 ≤ (s.stack[j.val]).toNat ∧ (s.stack[j.val]).toNat ≤ 0x1000
  /-- A key is latched only while one is awaited (f). -/
  klatch : s.klatch.isSome = true → s.wait.isSome = true
  /-- While a key is awaited, `PC` is the fetchable address of the `Fx0A`. -/
  waitPc : s.wait.isSome = true → s.pc.toNat ≤ 0xFFE

/-- A step that raises no fault: what a claim of success asks of every step
(60_exceptions.md R223). -/
def SafeStep (s : State) : Prop := ∃ t, step s = .next t

/-- Bit `b` of row `r` of the sprite at `I` is 1 and falls on the pixel `(cx, cy)`
(43_display.md R171). -/
def spriteBitOn (s : State) (ox oy : Byte) (cx cy r b : Nat) : Bool :=
  spriteBit (s.readMem (ea s.index r)) b &&
    decide ((ox.toNat + b) % 64 = cx) && decide ((oy.toNat + r) % 32 = cy)

/-- The sprite of `n` rows at `I`, drawn at `(ox, oy)`, has a 1 bit on the pixel `(cx, cy)`. -/
def spriteCovers (s : State) (ox oy : Byte) (n cx cy : Nat) : Prop :=
  ∃ r b, r < n ∧ b < 8 ∧ spriteBitOn s ox oy cx cy r b = true

/-- The answer with its next state changed by `g`; a fault or a refusal stays as it is. -/
def mapNext (g : State → State) : Result → Result
  | .next t => .next (g t)
  | .fault f => .fault f
  | .refused r => .refused r

/-- The timers after `m` ticks (60_exceptions.md R236). -/
def ticks : Nat → State → State
  | 0, s => s
  | m + 1, s => (ticks m s).tick

/-- The skip instructions (10_state.md R24, clause (c)). -/
def isSkip : Instr → Bool
  | .seImm _ _ | .sneImm _ _ | .seReg _ _ | .sneReg _ _ | .skp _ | .sknp _ => true
  | _ => false

/-- The instructions that set `PC` on their own account, and the one that leaves it
(10_state.md R24, clauses (b) and (d)). -/
def setsPc : Instr → Bool
  | .ret | .jp _ | .call _ | .jpV0 _ | .ldVxK _ => true
  | _ => false

/-- The instructions that write `VF` as a flag (10_state.md R21). -/
def writesFlag : Instr → Bool
  | .addReg _ _ | .subReg _ _ | .shr _ _ | .subnReg _ _ | .shl _ _ | .drw _ _ _ => true
  | _ => false

/-- The instructions that write the general register `r` as data (10_state.md R20). -/
def writesData (r : RegIndex) : Instr → Bool
  | .ldImm x _ | .addImm x _ | .ldReg x _ | .orReg x _ | .andReg x _ | .xorReg x _
  | .addReg x _ | .subReg x _ | .shr x _ | .subnReg x _ | .shl x _ | .rnd x _ | .ldVxDT x =>
    decide (r = x)
  | .loadRegs x => decide (r.toNat ≤ x.toNat)
  | _ => false

end Sys2Proof
end

