-- ==== Sys2Proof/Certificates/Slice0/Obligations.lean ====
section
/-! DEFINITION. The statements for the provers, each from the numbered rules of spec/. Where a
statement rests on a decision that the spec marks as its own, or on a choice of the model, its
docstring names the decision's row (92_eei_decisions.md D<n>) or the log entry. -/

open Sys2Proof Sys2Proof.Machine

/-! ### Encoding -/

/-- Decoding an encoded instruction gives it back, whatever bytes follow: no bit of an encoding is
dropped. Every `Instr` is well formed, so this is for all of them (30_encoding.md R90 to R95). -/
def Obligations.DecodeOfEncode : Prop :=
  ∀ (i : Instr) (rest : List Byte), decode (encode i ++ rest) = .ok (i, rest)

/-- The other direction: a word that decodes is the word of the instruction it decodes to, so no two
words are read as the same instruction (30_encoding.md R91: no bit is ignored). -/
def Obligations.EncodeOfDecode : Prop :=
  ∀ (w : Word) (i : Instr), decodeWord w = .ok i → encodeWord i = w

/-- "The rows are pairwise disjoint" (30_encoding.md R94). -/
def Obligations.RowsAreDisjoint : Prop :=
  ∀ (w : Word) (r q : OpcodeRow), r ∈ opcodeRows → q ∈ opcodeRows →
    rowMatches w r = true → rowMatches w q = true → r = q

/-- The decode procedure of R95 agrees with the map of R94: a word decodes exactly when it matches a
row, to an instruction of that row, and is otherwise an invalid opcode (R100, decisions D21 and
D22). -/
def Obligations.DecoderAgreesWithTheMap : Prop :=
  (∀ (w : Word) (i : Instr), decodeWord w = .ok i →
    rowOf i ∈ opcodeRows ∧ rowMatches w (rowOf i) = true) ∧
  (∀ (w : Word) (r : OpcodeRow), r ∈ opcodeRows → rowMatches w r = true →
    ∃ i, decodeWord w = .ok i ∧ rowOf i = r) ∧
  (∀ w : Word, (∀ r ∈ opcodeRows, rowMatches w r = false) →
    decodeWord w = .error (.invalidOpcode w))

/-- Words written out from the patterns decode to the instructions they stand for, one or more of
each family (95_test_vectors.md E1 to E20). -/
def Obligations.SampleWordsDecode : Prop :=
  decode [0x00, 0xE0] = .ok (.cls, []) ∧
  decode [0x10, 0xE0] = .ok (.jp 0x0E0, []) ∧
  decode [0x51, 0x20] = .ok (.seReg 1 2, []) ∧
  decode [0x6A, 0x7F] = .ok (.ldImm 10 0x7F, []) ∧
  decode [0x8A, 0xB4] = .ok (.addReg 10 11, []) ∧
  decode [0xD1, 0x23] = .ok (.drw 1 2 3, []) ∧
  decode [0xE1, 0xA1] = .ok (.sknp 1, []) ∧
  decode [0xF2, 0x15] = .ok (.ldDTVx 2, []) ∧
  decode [0xF3, 0x65] = .ok (.loadRegs 3, []) ∧
  decode [0x00, 0x00] = .error (.invalidOpcode 0x0000) ∧
  decode [0x51, 0x21] = .error (.invalidOpcode 0x5121) ∧
  decode [0xF1, 0x75] = .error (.invalidOpcode 0xF175)

/-! ### The step cycle -/

/-- The fetch is big-endian: the byte at the lower address is the more significant half
(20_memory.md R62). -/
def Obligations.FetchIsBigEndian : Prop :=
  ∀ s : State, s.fetchWord.toNat =
    (s.readMem s.pc.toNat).toNat * 256 + (s.readMem (s.pc.toNat + 1)).toNat

/-- When nothing is requested, no key is awaited and the machine is not halted, a step runs the
instruction that the two bytes at `PC` decode to, and adds nothing around it (30_encoding.md
R105; decisions D5 and D19; requests: log entry 1). -/
def Obligations.StepRunsTheDecodedInstruction : Prop :=
  ∀ (s : State) (i : Instr) (rest : List Byte),
    s.requests = [] → s.wait = none → s.pc.toNat ≤ 0xFFE →
    decode [s.readMem s.pc.toNat, s.readMem (s.pc.toNat + 1)] = .ok (i, rest) →
    step s = exec i s

/-- An invalid opcode is a completed step that advances `PC` by 2 and changes nothing else, and its
outcome carries the word and its address (30_encoding.md R100, 60_exceptions.md R224; decision
D21; requests: log entry 1). -/
def Obligations.InvalidOpcodeAdvances : Prop :=
  ∀ (s : State) (e : DecodeError),
    s.requests = [] → s.wait = none → s.pc.toNat ≤ 0xFFE → decodeWord s.fetchWord = .error e →
    ∃ t, step s = .next t ∧ t.pc = s.pc + 2 ∧ Keeps {} s t ∧
      report s = .ok (decide (0xFFE < t.pc.toNat)) false (some (s.fetchWord, s.pc))

/-- Halted exactly above `0x0FFE`: a step taken there, with no key awaited, changes nothing and
reports `Halted` (10_state.md R26, 60_exceptions.md R225; decision D5; requests: log entry 1). -/
def Obligations.HaltedStepChangesNothing : Prop :=
  ∀ s : State, s.requests = [] → s.wait = none → 0xFFE < s.pc.toNat →
    step s = .next s ∧ report s = .ok true false none

/-- The outcome of a step: a fault, or `Ok` in which `awaiting` excludes `halted` and `invalid`; no
step is refused (60_exceptions.md R220; decision D24). -/
def Obligations.OutcomeShape : Prop :=
  ∀ s : State,
    (∃ f, report s = .fault f ∧ interpret s = .fault f) ∨
    (∃ t h a inv, report s = .ok h a inv ∧ interpret s = .next t ∧
      (a = true ↔ t.wait.isSome = true) ∧
      (h = true ↔ t.wait = none ∧ 0xFFE < t.pc.toNat) ∧
      (a = true → h = false ∧ inv = none))

/-- The transitions that are not steps come in the order requested, one each (60_exceptions.md R240;
the requests are the model's own, log entry 1, and a later reset keeps the model's count of draws,
log entry 12). -/
def Obligations.RequestsArePerformedInOrder : Prop :=
  ∀ (s : State) (ts : List Transition),
    (s.requests = .step :: ts → step s = interpret (s.setRequests ts)) ∧
    (s.requests = .tick :: ts → step s = .next ((s.setRequests ts).tick)) ∧
    (∀ k p, s.requests = .keyEvent k p :: ts →
      step s = .next ((s.setRequests ts).keyEvent k p)) ∧
    (∀ b, s.requests = .load b :: ts → step s = .next ((s.setRequests ts).afterLoad b)) ∧
    (s.requests = .reset :: ts →
      step s = .next { State.reset with draws := s.draws, requests := ts })

/-! ### Control transfer -/

/-- `1nnn`: `PC` becomes `nnn`, zero-extended, and nothing else changes; the machine is halted after it
exactly when `nnn` is `0xFFF` (40_control.md R121). -/
def Obligations.JumpSetsPc : Prop :=
  ∀ (nnn : Addr) (s : State),
    (encodeWord (.jp nnn)).toNat = 0x1000 + nnn.toNat ∧
    ∃ t, exec (.jp nnn) s = .next t ∧ t.pc.toNat = nnn.toNat ∧
      (t.halted = true ↔ nnn.toNat = 0xFFF) ∧ Keeps {} s t

/-- `Bnnn`: `PC` becomes `nnn + V[0]` with no 12-bit wrap (40_control.md R123; decision D4). -/
def Obligations.OffsetJumpDoesNotWrap : Prop :=
  ∀ (nnn : Addr) (s : State), ∃ t, exec (.jpV0 nnn) s = .next t ∧
    t.pc.toNat = nnn.toNat + (s.readV 0).toNat ∧ Keeps {} s t

/-- `2nnn` with fewer than 16 addresses held: `PC + 2` is pushed and `PC` becomes `nnn`; with 16 held,
`StackOverflow` (40_control.md R122, 10_state.md R29, 60_exceptions.md R221; decision D10). -/
def Obligations.CallPushesReturnAddress : Prop :=
  ∀ (nnn : Addr) (s : State),
    (s.sp.val < 16 → ∃ t, exec (.call nnn) s = .next t ∧
      t.sp.val = s.sp.val + 1 ∧
      (∀ j : Fin 16, t.stack[j.val] = if j.val = s.sp.val then s.pc + 2 else s.stack[j.val]) ∧
      t.pc.toNat = nnn.toNat ∧ Keeps { stack := true } s t) ∧
    (s.sp.val = 16 → exec (.call nnn) s = .fault .stackOverflow)

/-- `00EE` with an address held: it is popped into `PC` as it is, and the entry stays in place; with
none held, `StackUnderflow` (40_control.md R120, 10_state.md R29, 60_exceptions.md R222; decision
D10). -/
def Obligations.ReturnPopsIntoPc : Prop :=
  ∀ s : State,
    (∀ j : Fin 16, s.sp.val = j.val + 1 → ∃ t, exec .ret s = .next t ∧
      t.sp.val = j.val ∧ t.pc = s.stack[j.val] ∧ t.stack = s.stack ∧
      Keeps { stack := true } s t) ∧
    (s.sp.val = 0 → exec .ret s = .fault .stackUnderflow)

/-- A return taken when the stack is as the call left it goes to the instruction after the call and
restores `SP` (40_control.md R120, R122; 95_test_vectors.md S9). -/
def Obligations.CallThenReturn : Prop :=
  ∀ (nnn : Addr) (s t u : State), exec (.call nnn) s = .next t → u.sp = t.sp → u.stack = t.stack →
    ∃ r, exec .ret u = .next r ∧ r.pc = s.pc + 2 ∧ r.sp = s.sp

/-- `3xnn` and `4xnn`: `PC + 4` when the register equals, respectively differs from, the immediate,
else `PC + 2`; nothing else changes (40_control.md R124, R125). -/
def Obligations.ImmediateSkips : Prop :=
  ∀ (x : RegIndex) (nn : Byte) (s : State),
    (encodeWord (.seImm x nn)).toNat = 0x3000 + x.toNat * 256 + nn.toNat ∧
    (encodeWord (.sneImm x nn)).toNat = 0x4000 + x.toNat * 256 + nn.toNat ∧
    (∃ t, exec (.seImm x nn) s = .next t ∧
      t.pc = (if s.readV x = nn then s.pc + 4 else s.pc + 2) ∧ Keeps {} s t) ∧
    (∃ t, exec (.sneImm x nn) s = .next t ∧
      t.pc = (if s.readV x ≠ nn then s.pc + 4 else s.pc + 2) ∧ Keeps {} s t)

/-- `5xy0` and `9xy0`: `PC + 4` when the two registers are equal, respectively differ, else `PC + 2`;
nothing else changes; a low digit other than 0 is invalid (40_control.md R126, R127; that the fixed
digit is matched strictly is decision D22, 30_encoding.md R100; log entry 10). -/
def Obligations.RegisterSkips : Prop :=
  (∀ (x y : RegIndex) (s : State),
    (encodeWord (.seReg x y)).toNat = 0x5000 + x.toNat * 256 + y.toNat * 16 ∧
    (encodeWord (.sneReg x y)).toNat = 0x9000 + x.toNat * 256 + y.toNat * 16 ∧
    (∃ t, exec (.seReg x y) s = .next t ∧
      t.pc = (if s.readV x = s.readV y then s.pc + 4 else s.pc + 2) ∧ Keeps {} s t) ∧
    (∃ t, exec (.sneReg x y) s = .next t ∧
      t.pc = (if s.readV x ≠ s.readV y then s.pc + 4 else s.pc + 2) ∧ Keeps {} s t)) ∧
  (∀ w : Word, w.toNat / 4096 = 5 ∨ w.toNat / 4096 = 9 → w.toNat % 16 ≠ 0 →
    decodeWord w = .error (.invalidOpcode w))

/-! ### Immediate load, immediate add, index load, random -/

/-- `6xnn` writes `nn` to `V[x]`, for every `x` (41_load_imm.md R140). -/
def Obligations.LoadImmediate : Prop :=
  ∀ (x : RegIndex) (nn : Byte) (s : State),
    (encodeWord (.ldImm x nn)).toNat = 0x6000 + x.toNat * 256 + nn.toNat ∧
    ∃ t, exec (.ldImm x nn) s = .next t ∧ t.readV x = nn ∧ t.pc = s.pc + 2 ∧
      Keeps { regs := [x] } s t

/-- `7xnn` adds `nn` to `V[x]` modulo 256 and writes no flag, for every `x` (41_load_imm.md R141). -/
def Obligations.AddImmediateWraps : Prop :=
  ∀ (x : RegIndex) (nn : Byte) (s : State),
    (encodeWord (.addImm x nn)).toNat = 0x7000 + x.toNat * 256 + nn.toNat ∧
    ∃ t, exec (.addImm x nn) s = .next t ∧
      (t.readV x).toNat = ((s.readV x).toNat + nn.toNat) % 256 ∧ t.pc = s.pc + 2 ∧
      Keeps { regs := [x] } s t

/-- `Annn` writes `nnn`, zero-extended, to `I` (41_load_imm.md R142). -/
def Obligations.LoadIndex : Prop :=
  ∀ (nnn : Addr) (s : State),
    (encodeWord (.ldI nnn)).toNat = 0xA000 + nnn.toNat ∧
    ∃ t, exec (.ldI nnn) s = .next t ∧ t.index.toNat = nnn.toNat ∧ t.pc = s.pc + 2 ∧
      Keeps { index := true } s t

/-- `Cxnn` writes the drawn byte masked with `nn`, and draws exactly one. The drawn byte is a free
value of the model (log entry 2): the statement holds for every value of it, and the bits where
`nn` has a 0 are 0 whatever it is (41_load_imm.md R143; decision D20). -/
def Obligations.RandomIsMasked : Prop :=
  ∀ (x : RegIndex) (nn : Byte) (s : State), ∃ t, exec (.rnd x nn) s = .next t ∧
    t.readV x = Config.randomByte s.draws &&& nn ∧
    (∀ j, nn.getLsbD j = false → (t.readV x).getLsbD j = false) ∧
    t.draws = s.draws + 1 ∧ t.pc = s.pc + 2 ∧ Keeps { regs := [x], draws := true } s t

/-! ### Register-to-register ALU -/

/-- `8xy0` copies `V[y]` to `V[x]` (42_alu.md R151). -/
def Obligations.RegisterMove : Prop :=
  ∀ (x y : RegIndex) (s : State),
    (encodeWord (.ldReg x y)).toNat = 0x8000 + x.toNat * 256 + y.toNat * 16 ∧
    ∃ t, exec (.ldReg x y) s = .next t ∧ t.readV x = s.readV y ∧ t.pc = s.pc + 2 ∧
      Keeps { regs := [x] } s t

/-- `8xy1`, `8xy2`, `8xy3`: each bit of `V[x]` becomes the OR, AND, XOR of the two registers' bits, and
`VF` is not written (42_alu.md R152 to R154; decision D12). -/
def Obligations.BitwiseBitByBit : Prop :=
  ∀ (x y : RegIndex) (s : State),
    (∃ t, exec (.orReg x y) s = .next t ∧
      (∀ j, (t.readV x).getLsbD j = ((s.readV x).getLsbD j || (s.readV y).getLsbD j)) ∧
      t.pc = s.pc + 2 ∧ Keeps { regs := [x] } s t) ∧
    (∃ t, exec (.andReg x y) s = .next t ∧
      (∀ j, (t.readV x).getLsbD j = ((s.readV x).getLsbD j && (s.readV y).getLsbD j)) ∧
      t.pc = s.pc + 2 ∧ Keeps { regs := [x] } s t) ∧
    (∃ t, exec (.xorReg x y) s = .next t ∧
      (∀ j, (t.readV x).getLsbD j = ((s.readV x).getLsbD j ^^ (s.readV y).getLsbD j)) ∧
      t.pc = s.pc + 2 ∧ Keeps { regs := [x] } s t)

/-- `8xy4`: `V[x]` becomes the sum modulo 256 and, for `x` other than 15, `VF` the carry; with
`x = 15` the sum stays in `VF` (42_alu.md R155, R150; decision D11). -/
def Obligations.AddSetsCarry : Prop :=
  ∀ (x y : RegIndex) (s : State), ∃ t, exec (.addReg x y) s = .next t ∧
    (t.readV x).toNat = ((s.readV x).toNat + (s.readV y).toNat) % 256 ∧
    (x ≠ 15 → t.readV 15 = if 255 < (s.readV x).toNat + (s.readV y).toNat then 1 else 0) ∧
    t.pc = s.pc + 2 ∧ Keeps { regs := [x, 15] } s t

/-- `8xy5` and `8xy7`: `V[x]` becomes the difference modulo 256 and, for `x` other than 15, `VF` is 1
exactly when there is no borrow; with `x = 15` the difference stays in `VF` (42_alu.md R156,
R158, R150; decision D11). -/
def Obligations.SubtractSetsNotBorrow : Prop :=
  ∀ (x y : RegIndex) (s : State),
    (∃ t, exec (.subReg x y) s = .next t ∧
      (t.readV x).toNat = (256 + (s.readV x).toNat - (s.readV y).toNat) % 256 ∧
      (x ≠ 15 → t.readV 15 = if (s.readV y).toNat ≤ (s.readV x).toNat then 1 else 0) ∧
      t.pc = s.pc + 2 ∧ Keeps { regs := [x, 15] } s t) ∧
    (∃ t, exec (.subnReg x y) s = .next t ∧
      (t.readV x).toNat = (256 + (s.readV y).toNat - (s.readV x).toNat) % 256 ∧
      (x ≠ 15 → t.readV 15 = if (s.readV x).toNat ≤ (s.readV y).toNat then 1 else 0) ∧
      t.pc = s.pc + 2 ∧ Keeps { regs := [x, 15] } s t)

/-- `8xy6` and `8xyE`: `V[x]` is halved, respectively doubled modulo 256, and, for `x` other than 15,
`VF` is the bit shifted out; `V[y]` plays no part (42_alu.md R157, R159, R150; decision D11). -/
def Obligations.ShiftsMoveTheBitOut : Prop :=
  ∀ (x y : RegIndex) (s : State),
    (∃ t, exec (.shr x y) s = .next t ∧
      (t.readV x).toNat = (s.readV x).toNat / 2 ∧
      (x ≠ 15 → (t.readV 15).toNat = (s.readV x).toNat % 2) ∧
      t.pc = s.pc + 2 ∧ Keeps { regs := [x, 15] } s t) ∧
    (∃ t, exec (.shl x y) s = .next t ∧
      (t.readV x).toNat = (s.readV x).toNat * 2 % 256 ∧
      (x ≠ 15 → (t.readV 15).toNat = (s.readV x).toNat / 128) ∧
      t.pc = s.pc + 2 ∧ Keeps { regs := [x, 15] } s t)

/-! ### Display -/

/-- `00E0` puts every pixel off and writes no flag (43_display.md R170). -/
def Obligations.ClearScreen : Prop :=
  encodeWord .cls = 0x00E0 ∧
  ∀ s : State, ∃ t, exec .cls s = .next t ∧ (∀ cx cy, t.pixel cx cy = false) ∧
    t.pc = s.pc + 2 ∧ Keeps { screen := true } s t

/-- `Dxyn`: exactly the pixels that a 1 bit of the sprite falls on change, the coordinates wrapping on
both axes, and `VF` is 1 exactly when some pixel went from on to off (43_display.md R171, R172,
R173; decisions D8 and D16). -/
def Obligations.DrawXorsTheSprite : Prop :=
  ∀ (x y : RegIndex) (n : BitVec 4) (s : State), ∃ t, exec (.drw x y n) s = .next t ∧
    (∀ cx cy, cx < 64 → cy < 32 →
      (t.pixel cx cy ≠ s.pixel cx cy ↔
        spriteCovers s (s.readV x) (s.readV y) n.toNat cx cy)) ∧
    (t.readV 15 = 0 ∨ t.readV 15 = 1) ∧
    (t.readV 15 = 1 ↔
      ∃ cx cy, cx < 64 ∧ cy < 32 ∧ s.pixel cx cy = true ∧ t.pixel cx cy = false) ∧
    t.pc = s.pc + 2 ∧ Keeps { regs := [15], screen := true } s t

/-- Drawing the same sprite twice at the same place restores every pixel, and the second draw sets
`VF` exactly when a 1 bit falls on a pixel that is on after the first (43_display.md R174 (a)).
The origin registers are not `VF`, which the first draw writes (R172). -/
def Obligations.DrawTwiceRestores : Prop :=
  ∀ (x y : RegIndex) (n : BitVec 4) (s t u : State), x ≠ 15 → y ≠ 15 →
    exec (.drw x y n) s = .next t → exec (.drw x y n) t = .next u →
    (∀ cx cy, u.pixel cx cy = s.pixel cx cy) ∧
    (u.readV 15 = 1 ↔ ∃ cx cy, cx < 64 ∧ cy < 32 ∧ t.pixel cx cy = true ∧
      spriteCovers s (s.readV x) (s.readV y) n.toNat cx cy)

/-! ### Keys -/

/-- `Ex9E` and `ExA1`: `PC + 4` when the key `V[x] mod 16` is pressed, respectively not pressed, else
`PC + 2`; nothing else changes (44_keys.md R180, R181; decision D17). -/
def Obligations.KeySkips : Prop :=
  ∀ (x : RegIndex) (k : KeyIndex) (s : State), k.toNat = (s.readV x).toNat % 16 →
    (∃ t, exec (.skp x) s = .next t ∧
      t.pc = (if s.keyDown k = true then s.pc + 4 else s.pc + 2) ∧ Keeps {} s t) ∧
    (∃ t, exec (.sknp x) s = .next t ∧
      t.pc = (if s.keyDown k = false then s.pc + 4 else s.pc + 2) ∧ Keeps {} s t)

/-- `Fx0A`, the step that executes it: the machine begins to await a key for `V[x]`, with nothing
latched, and neither `PC` nor a register changes (44_keys.md R182; decision D19). -/
def Obligations.KeyWaitBegins : Prop :=
  ∀ (x : RegIndex) (s : State), ∃ t, exec (.ldVxK x) s = .next t ∧
    t.wait = some x ∧ t.klatch = none ∧ t.pc = s.pc ∧ Keeps { keyWait := true } s t

/-- `Fx0A`, every later step while a key is awaited: with none latched nothing changes and the step
reports awaiting; with key `k` latched `V[x]` receives `k`, `PC` advances and the wait is over
(44_keys.md R183, 30_encoding.md R105; decision D19; requests: log entry 1). -/
def Obligations.KeyWaitCompletes : Prop :=
  ∀ (s : State) (x : RegIndex), s.requests = [] → s.wait = some x →
    (s.klatch = none → step s = .next s ∧ report s = .ok false true none) ∧
    (∀ k, s.klatch = some k → ∃ t, step s = .next t ∧
      (t.readV x).toNat = k.toNat ∧ t.pc = s.pc + 2 ∧ t.wait = none ∧ t.klatch = none ∧
      Keeps { regs := [x], keyWait := true } s t ∧
      report s = .ok (decide (0xFFE < t.pc.toNat)) false none)

/-- `key_event(k, pressed)` sets the key's level, latches `k` when a key is awaited and none latched
yet and the event is a press, and changes nothing else (60_exceptions.md R237; decision D19). -/
def Obligations.KeyEventLatchesFirstPress : Prop :=
  ∀ (s : State) (k : KeyIndex) (pressed : Bool),
    (∀ j, (s.keyEvent k pressed).keyDown j = if j = k then pressed else s.keyDown j) ∧
    ((pressed = true ∧ s.wait ≠ none ∧ s.klatch = none) →
      (s.keyEvent k pressed).klatch = some k) ∧
    (¬ (pressed = true ∧ s.wait ≠ none ∧ s.klatch = none) →
      (s.keyEvent k pressed).klatch = s.klatch) ∧
    s.keyEvent k pressed =
      { s with keys := (s.keyEvent k pressed).keys, klatch := (s.keyEvent k pressed).klatch }

/-! ### Timers -/

/-- `Fx07` reads `DT`, `Fx15` writes `DT`, `Fx18` writes `ST`, all eight bits (45_timers.md R190 to
R192; which pattern does which is decision D14, from general knowledge). -/
def Obligations.TimerAccess : Prop :=
  ∀ (x : RegIndex) (s : State),
    (∃ t, exec (.ldVxDT x) s = .next t ∧ t.readV x = s.dt ∧ t.pc = s.pc + 2 ∧
      Keeps { regs := [x] } s t) ∧
    (∃ t, exec (.ldDTVx x) s = .next t ∧ t.dt = s.readV x ∧ t.pc = s.pc + 2 ∧
      Keeps { dt := true } s t) ∧
    (∃ t, exec (.ldSTVx x) s = .next t ∧ t.st = s.readV x ∧ t.pc = s.pc + 2 ∧
      Keeps { st := true } s t)

/-- `tick` decrements each timer that is not zero, in every state, and reads and writes nothing else
(60_exceptions.md R235). -/
def Obligations.TickDecrements : Prop :=
  ∀ s : State,
    (s.tick).dt.toNat = s.dt.toNat - 1 ∧ (s.tick).st.toNat = s.st.toNat - 1 ∧
    s.tick = { s with dt := (s.tick).dt, st := (s.tick).st }

/-- After `m` ticks a timer that held `v` holds `max(v - m, 0)` (60_exceptions.md R236; subtraction of
natural numbers stops at 0). -/
def Obligations.TicksSaturateAtZero : Prop :=
  ∀ (m : Nat) (s : State),
    (ticks m s).dt.toNat = s.dt.toNat - m ∧ (ticks m s).st.toNat = s.st.toNat - m

/-! ### Index and memory -/

/-- `Fx1E` adds `V[x]` to `I` modulo 4096 and writes no flag (46_index_memory.md R200; decision
D12). -/
def Obligations.AddIndexWraps : Prop :=
  ∀ (x : RegIndex) (s : State), ∃ t, exec (.addI x) s = .next t ∧
    t.index.toNat = (s.index.toNat + (s.readV x).toNat) % 4096 ∧ t.pc = s.pc + 2 ∧
    Keeps { index := true } s t

/-- `Fx29` sets `I` to `FONT_BASE + 5 * V[x]` on the full 8-bit value, with no wrap, for every value of
the parameter `FONT_BASE` (46_index_memory.md R201; decisions D2 and D18; log entry 3). -/
def Obligations.GlyphAddress : Prop :=
  ∀ (x : RegIndex) (s : State), ∃ t, exec (.ldF x) s = .next t ∧
    t.index.toNat = Config.fontBase.val + 5 * (s.readV x).toNat ∧ t.index.toNat ≤ 0x6AB ∧
    t.pc = s.pc + 2 ∧ Keeps { index := true } s t

/-- `Fx33` stores the hundreds, tens and ones digits of `V[x]` at `ea(0)`, `ea(1)`, `ea(2)`
(46_index_memory.md R202; decisions D8 and D15, the order of the digits from general
knowledge). -/
def Obligations.BcdDigitsStored : Prop :=
  ∀ (x : RegIndex) (s : State), ∃ t, exec (.ldB x) s = .next t ∧
    (t.readMem (ea s.index 0)).toNat * 100 + (t.readMem (ea s.index 1)).toNat * 10 +
      (t.readMem (ea s.index 2)).toNat = (s.readV x).toNat ∧
    (t.readMem (ea s.index 1)).toNat ≤ 9 ∧ (t.readMem (ea s.index 2)).toNat ≤ 9 ∧
    t.pc = s.pc + 2 ∧
    Keeps { stored := [ea s.index 0, ea s.index 1, ea s.index 2] } s t

/-- `Fx55` stores `V[k]` at `ea(k)` for `k` from 0 to `x` inclusive, and `I` is unchanged
(46_index_memory.md R204, R203; decisions D8 and D13). -/
def Obligations.BlockStore : Prop :=
  ∀ (x : RegIndex) (s : State), ∃ t, exec (.storeRegs x) s = .next t ∧
    (∀ k : RegIndex, k.toNat ≤ x.toNat → t.readMem (ea s.index k.toNat) = s.readV k) ∧
    t.pc = s.pc + 2 ∧
    Keeps { stored := (List.range (x.toNat + 1)).map (ea s.index) } s t

/-- `Fx65` loads `V[k]` from `ea(k)` for `k` from 0 to `x` inclusive; the registers above `x`, `I` and
memory are unchanged (46_index_memory.md R205, R203; decisions D8 and D13). -/
def Obligations.BlockLoad : Prop :=
  ∀ (x : RegIndex) (s : State), ∃ t, exec (.loadRegs x) s = .next t ∧
    (∀ k : RegIndex, t.readV k =
      if k.toNat ≤ x.toNat then s.readMem (ea s.index k.toNat) else s.readV k) ∧
    t.pc = s.pc + 2 ∧
    Keeps { regs := (List.range (x.toNat + 1)).map (BitVec.ofNat 4) } s t

/-- A block store followed, wherever the program goes in between, by a block load from the same `I`
in the same memory gives the registers back (46_index_memory.md R204, R205; decision D13). -/
def Obligations.StoreThenLoadRestores : Prop :=
  ∀ (x : RegIndex) (s t u : State), exec (.storeRegs x) s = .next t →
    u.index = t.index → u.mem = t.mem →
    ∃ r, exec (.loadRegs x) u = .next r ∧
      ∀ k : RegIndex, k.toNat ≤ x.toNat → r.readV k = s.readV k

/-! ### Faults -/

/-- The machine's only faults: `2nnn` with 16 addresses held and `00EE` with none; every other
instruction, in every state, answers a next state, and none is refused (60_exceptions.md R221,
R222, R227). -/
def Obligations.FaultsAreTheStackFaults : Prop :=
  ∀ (i : Instr) (s : State),
    (∀ f, exec i s = .fault f ↔
      (f = .stackOverflow ∧ (∃ nnn, i = .call nnn) ∧ s.sp.val = 16) ∨
      (f = .stackUnderflow ∧ i = .ret ∧ s.sp.val = 0)) ∧
    ((∃ f, exec i s = .fault f) ∨ ∃ t, exec i s = .next t)

/-- A fault repeats: when the next step raises it, any number of ticks and key events requested before
that step are performed, and then the step raises the same fault (60_exceptions.md R223; decision
D23; requests: log entry 1). -/
def Obligations.FaultRepeatsAfterInputs : Prop :=
  ∀ (s : State) (f : Fault),
    (∀ e ∈ s.requests, e = .tick ∨ ∃ k p, e = .keyEvent k p) → interpret s = .fault f →
    ∃ t, Sys2Proof.core.run s.requests.length s = .next t ∧ t.requests = [] ∧
      step t = .fault f

/-! ### Reset and load -/

/-- The state after reset (10_state.md R38, 70_reset_and_hazards.md R260; decisions D2, D3 and D25;
the model's own two fields: log entries 1 and 2). -/
def Obligations.ResetValues : Prop :=
  (∀ r, State.reset.readV r = 0) ∧ State.reset.pc = 0x0200 ∧ State.reset.index = 0 ∧
  State.reset.sp.val = 0 ∧ (∀ j : Fin 16, State.reset.stack[j.val] = 0) ∧
  State.reset.dt = 0 ∧ State.reset.st = 0 ∧
  (∀ cx cy, State.reset.pixel cx cy = false) ∧ (∀ k, State.reset.keyDown k = false) ∧
  State.reset.wait = none ∧ State.reset.klatch = none ∧
  (∀ j : Fin 80, State.reset.readMem (Config.fontBase.val + j.val) = Config.fontData j) ∧
  (∀ a, a < Config.fontBase.val ∨ Config.fontBase.val + 80 ≤ a → State.reset.readMem a = 0)

/-- `load` of at most 3583 bytes copies them from `0x200` up and changes nothing else; a longer program
is `ProgramTooLarge` and changes nothing (70_reset_and_hazards.md R265; decision D26). -/
def Obligations.LoadCopiesTheProgram : Prop :=
  ∀ (s : State) (program : List Byte),
    (program.length ≤ 3583 → ∃ t, s.load program = .ok t ∧ s.afterLoad program = t ∧
      (∀ j (h : j < program.length), t.readMem (0x200 + j) = program[j]) ∧
      (∀ a, a < 0x200 ∨ 0x200 + program.length ≤ a → t.readMem a = s.readMem a) ∧
      t = { s with mem := t.mem }) ∧
    (3583 < program.length →
      s.load program = .error .programTooLarge ∧ s.afterLoad program = s)

/-! ### Whole-machine rules -/

/-- The only instruction writers of each part of the state, over all instructions: `I` by `Annn`,
`Fx1E`, `Fx29`; the stack by `2nnn`, `00EE`; `DT` by `Fx15`; `ST` by `Fx18`; memory by `Fx33`,
`Fx55`; the framebuffer by `00E0`, `Dxyn`; the keys by none; the wait by `Fx0A` (10_state.md R27,
R28, R30, R32, R34, R36; 20_memory.md R65; decisions D12, D13 and D19; the count of draws by
`Cxnn`: log entry 2). -/
def Obligations.OnlyTheNamedWriters : Prop :=
  ∀ (i : Instr) (s t : State), exec i s = .next t →
    (t.index ≠ s.index → (∃ a, i = .ldI a) ∨ (∃ x, i = .addI x) ∨ ∃ x, i = .ldF x) ∧
    (t.sp ≠ s.sp ∨ t.stack ≠ s.stack → (∃ a, i = .call a) ∨ i = .ret) ∧
    (t.dt ≠ s.dt → ∃ x, i = .ldDTVx x) ∧
    (t.st ≠ s.st → ∃ x, i = .ldSTVx x) ∧
    (t.mem ≠ s.mem → (∃ x, i = .ldB x) ∨ ∃ x, i = .storeRegs x) ∧
    (t.fb ≠ s.fb → i = .cls ∨ ∃ x y n, i = .drw x y n) ∧
    t.keys = s.keys ∧
    (t.wait ≠ s.wait ∨ t.klatch ≠ s.klatch → ∃ x, i = .ldVxK x) ∧
    (t.draws ≠ s.draws → ∃ x nn, i = .rnd x nn) ∧
    t.requests = s.requests

/-- A general register changes only by an instruction that names it as data, or, for `VF`, by one of
the six that write the flag (10_state.md R20, R21; decision D12). -/
def Obligations.RegisterWriters : Prop :=
  ∀ (i : Instr) (s t : State) (r : RegIndex), exec i s = .next t → t.readV r ≠ s.readV r →
    writesData r i = true ∨ (r = 15 ∧ writesFlag i = true)

/-- How `PC` advances: by 2 for every instruction that does not set it itself, or by 4 for a skip, so
that an even `PC` stays even (10_state.md R24, R25; decision D6). -/
def Obligations.DefaultAdvanceOrSkip : Prop :=
  ∀ (i : Instr) (s t : State), setsPc i = false → exec i s = .next t →
    (t.pc = s.pc + 2 ∨ (isSkip i = true ∧ t.pc = s.pc + 4)) ∧
    (s.pc.toNat % 2 = 0 → t.pc.toNat % 2 = 0)

/-- Only `Cxnn` reads the random input: for every other instruction the count of draws makes no
difference but to itself (30_encoding.md R105, R106; decision D20; the count: log entry 2). -/
def Obligations.OnlyRandomReadsTheDraw : Prop :=
  ∀ (i : Instr) (s : State) (d : Nat), (∀ x nn, i ≠ .rnd x nn) →
    exec i { s with draws := d } = mapNext (fun t => { t with draws := d }) (exec i s)

/-- Only `Ex9E` and `ExA1` read the keys: for every other instruction they make no difference but to
themselves (30_encoding.md R105). -/
def Obligations.OnlyKeySkipsReadTheKeys : Prop :=
  ∀ (i : Instr) (s : State) (ks : Vector Bool 16), (∀ x, i ≠ .skp x ∧ i ≠ .sknp x) →
    exec i { s with keys := ks } = mapNext (fun t => { t with keys := ks }) (exec i s)

/-- The invariant holds after reset: the clauses of 10_state.md R37 that are no fact of a field's type,
the canonical form of memory (log entry 11), and clause `waitPc`, the model's own (log entry 8). -/
def Obligations.ResetMeetsTheInvariant : Prop := Inv State.reset

/-- Every step of the machine, whichever transition it is, keeps the invariant: `I`, `PC` and the held
return addresses stay in their ranges and a key is latched only while one is awaited (10_state.md
R37), memory stays in its canonical form (log entry 11), and a key is awaited only at a fetchable
`PC` (clause `waitPc`, the model's own, log entry 8; requests: log entry 1). -/
def Obligations.StepKeepsTheInvariant : Prop :=
  ∀ s t : State, Inv s → step s = .next t → Inv t
end

