-- ==== Sys2Proof/Laws/Encoding.lean ====
section
/-! SUPPORT. Words and their fields as numbers (30_encoding.md R91, R92): what a format puts together,
and that each field of a word put together is the field put in. -/

namespace Sys2Proof

/-- Appending is positional notation. -/
theorem toNat_append_eq {a b : Nat} (p : BitVec a) (q : BitVec b) :
    (p ++ q).toNat = p.toNat * 2 ^ b + q.toNat := by
  rw [BitVec.toNat_append, ← Nat.shiftLeft_add_eq_or_of_lt q.isLt, Nat.shiftLeft_eq]

theorem toNat_wordA (op : BitVec 4) (nnn : Addr) :
    (wordA op nnn).toNat = op.toNat * 4096 + nnn.toNat :=
  toNat_append_eq op nnn

theorem toNat_wordXI (op x : BitVec 4) (nn : Byte) :
    (wordXI op x nn).toNat = op.toNat * 4096 + x.toNat * 256 + nn.toNat := by
  refine (toNat_append_eq (op ++ x) nn).trans ?_
  rw [toNat_append_eq]
  omega

theorem toNat_wordXYN (op x y n : BitVec 4) :
    (wordXYN op x y n).toNat = op.toNat * 4096 + x.toNat * 256 + y.toNat * 16 + n.toNat := by
  refine (toNat_append_eq (op ++ x ++ y) n).trans ?_
  rw [toNat_append_eq, toNat_append_eq]
  omega

theorem toNat_joinBytes (hi lo : Byte) : (joinBytes hi lo).toNat = hi.toNat * 256 + lo.toNat :=
  toNat_append_eq hi lo

/-! ### Fields as numbers -/

theorem toNat_fieldOp (w : Word) : (fieldOp w).toNat = w.toNat / 4096 := by
  have := w.isLt
  simp only [fieldOp, BitVec.extractLsb'_toNat, Nat.shiftRight_eq_div_pow]
  omega

theorem toNat_fieldX (w : Word) : (fieldX w).toNat = w.toNat / 256 % 16 := by
  simp only [fieldX, BitVec.extractLsb'_toNat, Nat.shiftRight_eq_div_pow]

theorem toNat_fieldY (w : Word) : (fieldY w).toNat = w.toNat / 16 % 16 := by
  simp only [fieldY, BitVec.extractLsb'_toNat, Nat.shiftRight_eq_div_pow]

theorem toNat_fieldN (w : Word) : (fieldN w).toNat = w.toNat % 16 := by
  simp [fieldN, BitVec.extractLsb'_toNat]

theorem toNat_fieldNN (w : Word) : (fieldNN w).toNat = w.toNat % 256 := by
  simp [fieldNN, BitVec.extractLsb'_toNat]

theorem toNat_fieldNNN (w : Word) : (fieldNNN w).toNat = w.toNat % 4096 := by
  simp [fieldNNN, BitVec.extractLsb'_toNat]

/-! ### Fields of a word put together -/

@[simp] theorem fieldOp_wordA (op : BitVec 4) (nnn : Addr) : fieldOp (wordA op nnn) = op := by
  have := nnn.isLt
  apply BitVec.eq_of_toNat_eq
  rw [toNat_fieldOp, toNat_wordA]
  omega

@[simp] theorem fieldNNN_wordA (op : BitVec 4) (nnn : Addr) : fieldNNN (wordA op nnn) = nnn := by
  have := nnn.isLt
  apply BitVec.eq_of_toNat_eq
  rw [toNat_fieldNNN, toNat_wordA]
  omega

@[simp] theorem fieldOp_wordXI (op x : BitVec 4) (nn : Byte) : fieldOp (wordXI op x nn) = op := by
  have := x.isLt
  have := nn.isLt
  apply BitVec.eq_of_toNat_eq
  rw [toNat_fieldOp, toNat_wordXI]
  omega

@[simp] theorem fieldX_wordXI (op x : BitVec 4) (nn : Byte) : fieldX (wordXI op x nn) = x := by
  have := x.isLt
  have := nn.isLt
  apply BitVec.eq_of_toNat_eq
  rw [toNat_fieldX, toNat_wordXI]
  omega

@[simp] theorem fieldNN_wordXI (op x : BitVec 4) (nn : Byte) : fieldNN (wordXI op x nn) = nn := by
  have := nn.isLt
  apply BitVec.eq_of_toNat_eq
  rw [toNat_fieldNN, toNat_wordXI]
  omega

@[simp] theorem fieldOp_wordXYN (op x y n : BitVec 4) : fieldOp (wordXYN op x y n) = op := by
  have := x.isLt
  have := y.isLt
  have := n.isLt
  apply BitVec.eq_of_toNat_eq
  rw [toNat_fieldOp, toNat_wordXYN]
  omega

@[simp] theorem fieldX_wordXYN (op x y n : BitVec 4) : fieldX (wordXYN op x y n) = x := by
  have := x.isLt
  have := y.isLt
  have := n.isLt
  apply BitVec.eq_of_toNat_eq
  rw [toNat_fieldX, toNat_wordXYN]
  omega

@[simp] theorem fieldY_wordXYN (op x y n : BitVec 4) : fieldY (wordXYN op x y n) = y := by
  have := y.isLt
  have := n.isLt
  apply BitVec.eq_of_toNat_eq
  rw [toNat_fieldY, toNat_wordXYN]
  omega

@[simp] theorem fieldN_wordXYN (op x y n : BitVec 4) : fieldN (wordXYN op x y n) = n := by
  have := n.isLt
  apply BitVec.eq_of_toNat_eq
  rw [toNat_fieldN, toNat_wordXYN]
  omega

/-! ### A word put together from its own fields -/

theorem wordA_of_fields {w : Word} {op : BitVec 4} (h : fieldOp w = op) :
    wordA op (fieldNNN w) = w := by
  subst h
  apply BitVec.eq_of_toNat_eq
  rw [toNat_wordA, toNat_fieldOp, toNat_fieldNNN]
  omega

theorem wordXI_of_fields {w : Word} {op : BitVec 4} {nn : Byte} (h : fieldOp w = op)
    (hnn : fieldNN w = nn) : wordXI op (fieldX w) nn = w := by
  subst h
  subst hnn
  apply BitVec.eq_of_toNat_eq
  rw [toNat_wordXI, toNat_fieldOp, toNat_fieldX, toNat_fieldNN]
  omega

theorem wordXYN_of_fields {w : Word} {op n : BitVec 4} (h : fieldOp w = op) (hn : fieldN w = n) :
    wordXYN op (fieldX w) (fieldY w) n = w := by
  subst h
  subst hn
  apply BitVec.eq_of_toNat_eq
  rw [toNat_wordXYN, toNat_fieldOp, toNat_fieldX, toNat_fieldY, toNat_fieldN]
  omega

/-! ### Bytes of a word -/

/-- The two bytes of a word, joined, are the word (20_memory.md R62). -/
theorem joinBytes_wordBytes (w : Word) :
    joinBytes (w.extractLsb' 8 8) (w.extractLsb' 0 8) = w := by
  have := w.isLt
  apply BitVec.eq_of_toNat_eq
  rw [toNat_joinBytes]
  simp only [BitVec.extractLsb'_toNat, Nat.shiftRight_eq_div_pow]
  omega

/-- A word that decodes does so from its two bytes, whatever bytes follow. -/
theorem decode_wordBytes {w : Word} {i : Instr} (rest : List Byte) (h : decodeWord w = .ok i) :
    decode (wordBytes w ++ rest) = .ok (i, rest) := by
  simp only [wordBytes, List.cons_append, List.nil_append, decode, joinBytes_wordBytes, h]

end Sys2Proof
end

