-- ==== Sys2Proof/Laws/Memory.lean ====
section
/-! SUPPORT. The laws of memory: a read after a write, that every memory operation keeps the canonical
form, and that equal memories in canonical form are equal data. -/

namespace Sys2Proof.Machine

/-! ### Read after write, for every list of cells -/

theorem Memory.read_erase (m : Memory) (a b : Nat) :
    (m.erase a).read b = if b = a then Memory.unlisted b else m.read b := by
  induction m with
  | nil => simp [Memory.erase, Memory.read]
  | cons c m ih =>
    unfold Memory.erase at ih ⊢
    by_cases hc : c.1 = a
    · have hf : (c :: m).filter (fun c => c.1 != a) = m.filter (fun c => c.1 != a) :=
        List.filter_cons_of_neg (by simp [hc])
      rw [hf, ih]
      by_cases hb : b = a
      · simp [hb]
      · have : ¬ c.1 = b := fun h => hb (h.symm.trans hc)
        simp [hb, Memory.read, this]
    · have hf : (c :: m).filter (fun c => c.1 != a) = c :: m.filter (fun c => c.1 != a) :=
        List.filter_cons_of_pos (by simp [hc])
      rw [hf]
      by_cases hcb : c.1 = b
      · have : ¬ b = a := fun h => hc (hcb.trans h)
        simp [Memory.read, hcb, this]
      · simp only [Memory.read, if_neg hcb]
        exact ih

theorem Memory.read_insert (m : Memory) (a b : Nat) (v : Byte) (h : ∀ c ∈ m, c.1 ≠ a) :
    (Memory.insert a v m).read b = if b = a then v else m.read b := by
  induction m with
  | nil =>
    by_cases hb : b = a
    · simp [Memory.insert, Memory.read, hb]
    · simp [Memory.insert, Memory.read, hb, Ne.symm hb]
  | cons c m ih =>
    by_cases hlt : a < c.1
    · by_cases hb : b = a
      · simp [Memory.insert, hlt, Memory.read, hb]
      · simp [Memory.insert, hlt, Memory.read, hb, Ne.symm hb]
    · have hih := ih fun d hd => h d (List.mem_cons_of_mem _ hd)
      by_cases hcb : c.1 = b
      · have : ¬ b = a := fun e => h c List.mem_cons_self (hcb.trans e)
        simp only [Memory.insert, if_neg hlt, Memory.read, if_pos hcb, if_neg this]
      · simp only [Memory.insert, if_neg hlt, Memory.read, if_neg hcb]
        exact hih

theorem Memory.ne_of_mem_erase {m : Memory} {a : Nat} {c : Host.Cell} (h : c ∈ m.erase a) :
    c.1 ≠ a := by
  simpa [Memory.erase] using (List.mem_filter.mp h).2

/-- A read after a write gives the byte written, and every other address reads as before
(20_memory.md R68). -/
@[simp] theorem Memory.read_write (m : Memory) (a b : Nat) (v : Byte) :
    (m.write a v).read b = if b = a then v else m.read b := by
  unfold Memory.write
  split
  · next hv =>
    rw [Memory.read_erase]
    by_cases hb : b = a
    · simp [hb, hv]
    · simp [hb]
  · rw [Memory.read_insert _ _ _ _ fun c hc => Memory.ne_of_mem_erase hc, Memory.read_erase]
    by_cases hb : b = a <;> simp [hb]

/-! ### Blocks -/

/-- An address outside the stored ones reads as before. -/
theorem Memory.read_writeBlock_of_notMem (base : Word) (bs : List Byte) (b : Nat) (k : Nat)
    (m : Memory) (h : ∀ j < bs.length, ea base (k + j) ≠ b) :
    (m.writeBlock base k bs).read b = m.read b := by
  induction bs generalizing k m with
  | nil => rfl
  | cons v bs ih =>
    have h0 : ea base k ≠ b := h 0 (Nat.succ_pos _)
    have hs : ∀ j < bs.length, ea base (k + 1 + j) ≠ b := fun j hj => by
      have := h (j + 1) (by simpa using hj)
      rwa [show k + (j + 1) = k + 1 + j by omega] at this
    rw [Memory.writeBlock, ih _ _ hs, Memory.read_write, if_neg (Ne.symm h0)]

/-- The addresses of one block of at most 4096 bytes are pairwise distinct (20_memory.md R67). -/
theorem ea_inj (base : Word) {j k : Nat} (hj : j < 4096) (hk : k < 4096)
    (h : ea base j = ea base k) : j = k := by
  unfold ea at h
  omega

theorem ea_lt (base : Word) (k : Nat) : ea base k < 4096 := Nat.mod_lt _ (by decide)

/-- Each stored address reads as the byte stored there. -/
theorem Memory.read_writeBlock (base : Word) (bs : List Byte) (k : Nat) (m : Memory)
    (hlen : k + bs.length ≤ 4096) (j : Nat) (hj : j < bs.length) :
    (m.writeBlock base k bs).read (ea base (k + j)) = bs[j] := by
  induction bs generalizing k m j with
  | nil => exact absurd hj (Nat.not_lt_zero _)
  | cons v bs ih =>
    have hlen' : k + 1 + bs.length ≤ 4096 := by simpa [Nat.add_assoc, Nat.add_comm] using hlen
    cases j with
    | zero =>
      have hne : ∀ i < bs.length, ea base (k + 1 + i) ≠ ea base k := fun i hi he => by
        have := ea_inj base (by omega) (by omega) he
        omega
      simp [Memory.writeBlock, Memory.read_writeBlock_of_notMem _ _ _ _ _ hne]
    | succ j =>
      have hj' : j < bs.length := by simpa using hj
      have := ih (k + 1) (m.write (ea base k) v) hlen' j hj'
      rw [show k + (j + 1) = k + 1 + j by omega]
      simpa [Memory.writeBlock] using this

/-! ### The canonical form -/

theorem Memory.wfFrom_mono {lo hi : Nat} {m : Memory} (hle : lo ≤ hi)
    (h : Memory.wfFrom hi m = true) : Memory.wfFrom lo m = true := by
  cases m with
  | nil => rfl
  | cons c m =>
    simp only [Memory.wfFrom, Bool.and_eq_true, decide_eq_true_eq] at h ⊢
    exact ⟨⟨⟨hle.trans h.1.1.1, h.1.1.2⟩, h.1.2⟩, h.2⟩

theorem Memory.wfFrom_erase {lo : Nat} {m : Memory} (a : Nat) (h : Memory.wfFrom lo m = true) :
    Memory.wfFrom lo (m.erase a) = true := by
  induction m generalizing lo with
  | nil => rfl
  | cons c m ih =>
    simp only [Memory.wfFrom, Bool.and_eq_true, decide_eq_true_eq] at h
    unfold Memory.erase at ih ⊢
    by_cases hc : c.1 = a
    · rw [List.filter_cons_of_neg (by simp [hc])]
      exact Memory.wfFrom_mono (by omega) (ih h.2)
    · rw [List.filter_cons_of_pos (by simp [hc])]
      simp only [Memory.wfFrom, Bool.and_eq_true, decide_eq_true_eq]
      exact ⟨h.1, ih h.2⟩

theorem Memory.wfFrom_insert {lo a : Nat} {v : Byte} {m : Memory} (hlo : lo ≤ a) (ha : a < 4096)
    (hv : v ≠ Memory.unlisted a) (hm : ∀ c ∈ m, c.1 ≠ a) (h : Memory.wfFrom lo m = true) :
    Memory.wfFrom lo (Memory.insert a v m) = true := by
  induction m generalizing lo with
  | nil => simp [Memory.insert, Memory.wfFrom, hlo, ha, hv]
  | cons c m ih =>
    have hca : c.1 ≠ a := hm c List.mem_cons_self
    simp only [Memory.wfFrom, Bool.and_eq_true, decide_eq_true_eq] at h
    by_cases hlt : a < c.1
    · simp only [Memory.insert, if_pos hlt, Memory.wfFrom, Bool.and_eq_true, decide_eq_true_eq]
      exact ⟨⟨⟨hlo, ha⟩, hv⟩, ⟨⟨hlt, h.1.1.2⟩, h.1.2⟩, h.2⟩
    · simp only [Memory.insert, if_neg hlt, Memory.wfFrom, Bool.and_eq_true, decide_eq_true_eq]
      exact ⟨h.1, ih (by omega) (fun d hd => hm d (List.mem_cons_of_mem _ hd)) h.2⟩

/-- A write inside the 4096 bytes keeps the canonical form. -/
theorem Memory.wf_write {m : Memory} {a : Nat} (v : Byte) (ha : a < 4096) (h : m.wf = true) :
    (m.write a v).wf = true := by
  unfold Memory.write Memory.wf at *
  split
  · exact Memory.wfFrom_erase a h
  · next hv =>
    exact Memory.wfFrom_insert (Nat.zero_le _) ha hv (fun c hc => Memory.ne_of_mem_erase hc)
      (Memory.wfFrom_erase a h)

/-- A block store, wherever it lies, keeps the canonical form. -/
theorem Memory.wf_writeBlock {m : Memory} (base : Word) (k : Nat) (bs : List Byte)
    (h : m.wf = true) : (m.writeBlock base k bs).wf = true := by
  induction bs generalizing k m with
  | nil => exact h
  | cons v bs ih => exact ih (k + 1) (Memory.wf_write v (ea_lt base k) h)

theorem Memory.read_of_wfFrom_lt {lo b : Nat} {m : Memory} (h : Memory.wfFrom lo m = true)
    (hb : b < lo) : m.read b = Memory.unlisted b := by
  induction m generalizing lo with
  | nil => rfl
  | cons c m ih =>
    simp only [Memory.wfFrom, Bool.and_eq_true, decide_eq_true_eq] at h
    have hne : c.1 ≠ b := by omega
    rw [Memory.read, if_neg hne, ih h.2 (by omega)]

/-- Two memories in canonical form that read alike everywhere are equal data. -/
theorem Memory.wfFrom_ext {lo : Nat} {m n : Memory} (hm : Memory.wfFrom lo m = true)
    (hn : Memory.wfFrom lo n = true) (h : ∀ a, m.read a = n.read a) : m = n := by
  induction m generalizing lo n with
  | nil =>
    cases n with
    | nil => rfl
    | cons d n =>
      simp only [Memory.wfFrom, Bool.and_eq_true, decide_eq_true_eq] at hn
      exact absurd (by simpa [Memory.read] using (h d.1).symm) hn.1.2
  | cons c m ih =>
    have hm0 := hm
    simp only [Memory.wfFrom, Bool.and_eq_true, decide_eq_true_eq] at hm
    cases n with
    | nil => exact absurd (by simpa [Memory.read] using h c.1) hm.1.2
    | cons d n =>
      have hn0 := hn
      simp only [Memory.wfFrom, Bool.and_eq_true, decide_eq_true_eq] at hn
      have hcd : c.1 = d.1 := by
        rcases Nat.lt_trichotomy c.1 d.1 with hlt | heq | hgt
        · have hr := h c.1
          have hd : Memory.read (d :: n) c.1 = Memory.unlisted c.1 :=
            Memory.read_of_wfFrom_lt (lo := d.1)
              (by simpa [Memory.wfFrom, hn.1.1.2, hn.1.2] using hn.2) hlt
          rw [hd] at hr
          exact absurd (by simpa [Memory.read] using hr) hm.1.2
        · exact heq
        · have hr := h d.1
          have hc : Memory.read (c :: m) d.1 = Memory.unlisted d.1 :=
            Memory.read_of_wfFrom_lt (lo := c.1)
              (by simpa [Memory.wfFrom, hm.1.1.2, hm.1.2] using hm.2) hgt
          rw [hc] at hr
          exact absurd (by simpa [Memory.read] using hr.symm) hn.1.2
      have hv : c.2 = d.2 := by simpa [Memory.read, hcd] using h d.1
      have hcell : c = d := Prod.ext hcd hv
      subst hcell
      have htail : m = n := ih hm.2 hn.2 fun a => by
        by_cases ha : a ≤ c.1
        · rw [Memory.read_of_wfFrom_lt hm.2 (by omega), Memory.read_of_wfFrom_lt hn.2 (by omega)]
        · have hne : ¬ c.1 = a := by omega
          simpa [Memory.read, hne] using h a
      rw [htail]

/-- Equal memories are equal data. -/
theorem Memory.wf_ext {m n : Memory} (hm : m.wf = true) (hn : n.wf = true)
    (h : ∀ a, m.read a = n.read a) : m = n :=
  Memory.wfFrom_ext hm hn h

/-- The reset memory has the canonical form. -/
theorem Memory.wf_reset : State.reset.mem.wf = true := rfl

end Sys2Proof.Machine
end

