-- ==== Sys2Proof/Laws/State.lean ====
section
/-! SUPPORT. One lemma per field per update of State, so that no proof unfolds a record update. -/

namespace Sys2Proof.Machine

variable (s : State)

/-! ### `writeV` -/

@[simp] theorem State.pc_writeV (x : RegIndex) (b : Byte) : (s.writeV x b).pc = s.pc := rfl
@[simp] theorem State.index_writeV (x : RegIndex) (b : Byte) : (s.writeV x b).index = s.index := rfl
@[simp] theorem State.sp_writeV (x : RegIndex) (b : Byte) : (s.writeV x b).sp = s.sp := rfl
@[simp] theorem State.stack_writeV (x : RegIndex) (b : Byte) : (s.writeV x b).stack = s.stack := rfl
@[simp] theorem State.dt_writeV (x : RegIndex) (b : Byte) : (s.writeV x b).dt = s.dt := rfl
@[simp] theorem State.st_writeV (x : RegIndex) (b : Byte) : (s.writeV x b).st = s.st := rfl
@[simp] theorem State.mem_writeV (x : RegIndex) (b : Byte) : (s.writeV x b).mem = s.mem := rfl
@[simp] theorem State.fb_writeV (x : RegIndex) (b : Byte) : (s.writeV x b).fb = s.fb := rfl
@[simp] theorem State.keys_writeV (x : RegIndex) (b : Byte) : (s.writeV x b).keys = s.keys := rfl
@[simp] theorem State.wait_writeV (x : RegIndex) (b : Byte) : (s.writeV x b).wait = s.wait := rfl
@[simp] theorem State.klatch_writeV (x : RegIndex) (b : Byte) : (s.writeV x b).klatch = s.klatch := rfl
@[simp] theorem State.draws_writeV (x : RegIndex) (b : Byte) : (s.writeV x b).draws = s.draws := rfl
@[simp] theorem State.requests_writeV (x : RegIndex) (b : Byte) : (s.writeV x b).requests = s.requests := rfl

/-! ### `setPc` -/

@[simp] theorem State.v_setPc (w : Word) : (s.setPc w).v = s.v := rfl
@[simp] theorem State.pc_setPc (w : Word) : (s.setPc w).pc = w := rfl
@[simp] theorem State.index_setPc (w : Word) : (s.setPc w).index = s.index := rfl
@[simp] theorem State.sp_setPc (w : Word) : (s.setPc w).sp = s.sp := rfl
@[simp] theorem State.stack_setPc (w : Word) : (s.setPc w).stack = s.stack := rfl
@[simp] theorem State.dt_setPc (w : Word) : (s.setPc w).dt = s.dt := rfl
@[simp] theorem State.st_setPc (w : Word) : (s.setPc w).st = s.st := rfl
@[simp] theorem State.mem_setPc (w : Word) : (s.setPc w).mem = s.mem := rfl
@[simp] theorem State.fb_setPc (w : Word) : (s.setPc w).fb = s.fb := rfl
@[simp] theorem State.keys_setPc (w : Word) : (s.setPc w).keys = s.keys := rfl
@[simp] theorem State.wait_setPc (w : Word) : (s.setPc w).wait = s.wait := rfl
@[simp] theorem State.klatch_setPc (w : Word) : (s.setPc w).klatch = s.klatch := rfl
@[simp] theorem State.draws_setPc (w : Word) : (s.setPc w).draws = s.draws := rfl
@[simp] theorem State.requests_setPc (w : Word) : (s.setPc w).requests = s.requests := rfl

/-! ### `advance` -/

@[simp] theorem State.v_advance : (s.advance).v = s.v := rfl
@[simp] theorem State.pc_advance : (s.advance).pc = s.pc + 2 := rfl
@[simp] theorem State.index_advance : (s.advance).index = s.index := rfl
@[simp] theorem State.sp_advance : (s.advance).sp = s.sp := rfl
@[simp] theorem State.stack_advance : (s.advance).stack = s.stack := rfl
@[simp] theorem State.dt_advance : (s.advance).dt = s.dt := rfl
@[simp] theorem State.st_advance : (s.advance).st = s.st := rfl
@[simp] theorem State.mem_advance : (s.advance).mem = s.mem := rfl
@[simp] theorem State.fb_advance : (s.advance).fb = s.fb := rfl
@[simp] theorem State.keys_advance : (s.advance).keys = s.keys := rfl
@[simp] theorem State.wait_advance : (s.advance).wait = s.wait := rfl
@[simp] theorem State.klatch_advance : (s.advance).klatch = s.klatch := rfl
@[simp] theorem State.draws_advance : (s.advance).draws = s.draws := rfl
@[simp] theorem State.requests_advance : (s.advance).requests = s.requests := rfl

/-! ### `setIndex` -/

@[simp] theorem State.v_setIndex (w : Word) : (s.setIndex w).v = s.v := rfl
@[simp] theorem State.pc_setIndex (w : Word) : (s.setIndex w).pc = s.pc := rfl
@[simp] theorem State.index_setIndex (w : Word) : (s.setIndex w).index = w := rfl
@[simp] theorem State.sp_setIndex (w : Word) : (s.setIndex w).sp = s.sp := rfl
@[simp] theorem State.stack_setIndex (w : Word) : (s.setIndex w).stack = s.stack := rfl
@[simp] theorem State.dt_setIndex (w : Word) : (s.setIndex w).dt = s.dt := rfl
@[simp] theorem State.st_setIndex (w : Word) : (s.setIndex w).st = s.st := rfl
@[simp] theorem State.mem_setIndex (w : Word) : (s.setIndex w).mem = s.mem := rfl
@[simp] theorem State.fb_setIndex (w : Word) : (s.setIndex w).fb = s.fb := rfl
@[simp] theorem State.keys_setIndex (w : Word) : (s.setIndex w).keys = s.keys := rfl
@[simp] theorem State.wait_setIndex (w : Word) : (s.setIndex w).wait = s.wait := rfl
@[simp] theorem State.klatch_setIndex (w : Word) : (s.setIndex w).klatch = s.klatch := rfl
@[simp] theorem State.draws_setIndex (w : Word) : (s.setIndex w).draws = s.draws := rfl
@[simp] theorem State.requests_setIndex (w : Word) : (s.setIndex w).requests = s.requests := rfl

/-! ### `setDT` -/

@[simp] theorem State.v_setDT (b : Byte) : (s.setDT b).v = s.v := rfl
@[simp] theorem State.pc_setDT (b : Byte) : (s.setDT b).pc = s.pc := rfl
@[simp] theorem State.index_setDT (b : Byte) : (s.setDT b).index = s.index := rfl
@[simp] theorem State.sp_setDT (b : Byte) : (s.setDT b).sp = s.sp := rfl
@[simp] theorem State.stack_setDT (b : Byte) : (s.setDT b).stack = s.stack := rfl
@[simp] theorem State.dt_setDT (b : Byte) : (s.setDT b).dt = b := rfl
@[simp] theorem State.st_setDT (b : Byte) : (s.setDT b).st = s.st := rfl
@[simp] theorem State.mem_setDT (b : Byte) : (s.setDT b).mem = s.mem := rfl
@[simp] theorem State.fb_setDT (b : Byte) : (s.setDT b).fb = s.fb := rfl
@[simp] theorem State.keys_setDT (b : Byte) : (s.setDT b).keys = s.keys := rfl
@[simp] theorem State.wait_setDT (b : Byte) : (s.setDT b).wait = s.wait := rfl
@[simp] theorem State.klatch_setDT (b : Byte) : (s.setDT b).klatch = s.klatch := rfl
@[simp] theorem State.draws_setDT (b : Byte) : (s.setDT b).draws = s.draws := rfl
@[simp] theorem State.requests_setDT (b : Byte) : (s.setDT b).requests = s.requests := rfl

/-! ### `setST` -/

@[simp] theorem State.v_setST (b : Byte) : (s.setST b).v = s.v := rfl
@[simp] theorem State.pc_setST (b : Byte) : (s.setST b).pc = s.pc := rfl
@[simp] theorem State.index_setST (b : Byte) : (s.setST b).index = s.index := rfl
@[simp] theorem State.sp_setST (b : Byte) : (s.setST b).sp = s.sp := rfl
@[simp] theorem State.stack_setST (b : Byte) : (s.setST b).stack = s.stack := rfl
@[simp] theorem State.dt_setST (b : Byte) : (s.setST b).dt = s.dt := rfl
@[simp] theorem State.st_setST (b : Byte) : (s.setST b).st = b := rfl
@[simp] theorem State.mem_setST (b : Byte) : (s.setST b).mem = s.mem := rfl
@[simp] theorem State.fb_setST (b : Byte) : (s.setST b).fb = s.fb := rfl
@[simp] theorem State.keys_setST (b : Byte) : (s.setST b).keys = s.keys := rfl
@[simp] theorem State.wait_setST (b : Byte) : (s.setST b).wait = s.wait := rfl
@[simp] theorem State.klatch_setST (b : Byte) : (s.setST b).klatch = s.klatch := rfl
@[simp] theorem State.draws_setST (b : Byte) : (s.setST b).draws = s.draws := rfl
@[simp] theorem State.requests_setST (b : Byte) : (s.setST b).requests = s.requests := rfl

/-! ### `setFB` -/

@[simp] theorem State.v_setFB (fb : FrameBuffer) : (s.setFB fb).v = s.v := rfl
@[simp] theorem State.pc_setFB (fb : FrameBuffer) : (s.setFB fb).pc = s.pc := rfl
@[simp] theorem State.index_setFB (fb : FrameBuffer) : (s.setFB fb).index = s.index := rfl
@[simp] theorem State.sp_setFB (fb : FrameBuffer) : (s.setFB fb).sp = s.sp := rfl
@[simp] theorem State.stack_setFB (fb : FrameBuffer) : (s.setFB fb).stack = s.stack := rfl
@[simp] theorem State.dt_setFB (fb : FrameBuffer) : (s.setFB fb).dt = s.dt := rfl
@[simp] theorem State.st_setFB (fb : FrameBuffer) : (s.setFB fb).st = s.st := rfl
@[simp] theorem State.mem_setFB (fb : FrameBuffer) : (s.setFB fb).mem = s.mem := rfl
@[simp] theorem State.fb_setFB (fb : FrameBuffer) : (s.setFB fb).fb = fb := rfl
@[simp] theorem State.keys_setFB (fb : FrameBuffer) : (s.setFB fb).keys = s.keys := rfl
@[simp] theorem State.wait_setFB (fb : FrameBuffer) : (s.setFB fb).wait = s.wait := rfl
@[simp] theorem State.klatch_setFB (fb : FrameBuffer) : (s.setFB fb).klatch = s.klatch := rfl
@[simp] theorem State.draws_setFB (fb : FrameBuffer) : (s.setFB fb).draws = s.draws := rfl
@[simp] theorem State.requests_setFB (fb : FrameBuffer) : (s.setFB fb).requests = s.requests := rfl

/-! ### `writeBlock` -/

@[simp] theorem State.v_writeBlock (bs : List Byte) : (s.writeBlock bs).v = s.v := rfl
@[simp] theorem State.pc_writeBlock (bs : List Byte) : (s.writeBlock bs).pc = s.pc := rfl
@[simp] theorem State.index_writeBlock (bs : List Byte) : (s.writeBlock bs).index = s.index := rfl
@[simp] theorem State.sp_writeBlock (bs : List Byte) : (s.writeBlock bs).sp = s.sp := rfl
@[simp] theorem State.stack_writeBlock (bs : List Byte) : (s.writeBlock bs).stack = s.stack := rfl
@[simp] theorem State.dt_writeBlock (bs : List Byte) : (s.writeBlock bs).dt = s.dt := rfl
@[simp] theorem State.st_writeBlock (bs : List Byte) : (s.writeBlock bs).st = s.st := rfl
@[simp] theorem State.mem_writeBlock (bs : List Byte) : (s.writeBlock bs).mem = s.mem.writeBlock s.index 0 bs := rfl
@[simp] theorem State.fb_writeBlock (bs : List Byte) : (s.writeBlock bs).fb = s.fb := rfl
@[simp] theorem State.keys_writeBlock (bs : List Byte) : (s.writeBlock bs).keys = s.keys := rfl
@[simp] theorem State.wait_writeBlock (bs : List Byte) : (s.writeBlock bs).wait = s.wait := rfl
@[simp] theorem State.klatch_writeBlock (bs : List Byte) : (s.writeBlock bs).klatch = s.klatch := rfl
@[simp] theorem State.draws_writeBlock (bs : List Byte) : (s.writeBlock bs).draws = s.draws := rfl
@[simp] theorem State.requests_writeBlock (bs : List Byte) : (s.writeBlock bs).requests = s.requests := rfl

/-! ### `setWait` -/

@[simp] theorem State.v_setWait (w : Option RegIndex) (k : Option KeyIndex) : (s.setWait w k).v = s.v := rfl
@[simp] theorem State.pc_setWait (w : Option RegIndex) (k : Option KeyIndex) : (s.setWait w k).pc = s.pc := rfl
@[simp] theorem State.index_setWait (w : Option RegIndex) (k : Option KeyIndex) : (s.setWait w k).index = s.index := rfl
@[simp] theorem State.sp_setWait (w : Option RegIndex) (k : Option KeyIndex) : (s.setWait w k).sp = s.sp := rfl
@[simp] theorem State.stack_setWait (w : Option RegIndex) (k : Option KeyIndex) : (s.setWait w k).stack = s.stack := rfl
@[simp] theorem State.dt_setWait (w : Option RegIndex) (k : Option KeyIndex) : (s.setWait w k).dt = s.dt := rfl
@[simp] theorem State.st_setWait (w : Option RegIndex) (k : Option KeyIndex) : (s.setWait w k).st = s.st := rfl
@[simp] theorem State.mem_setWait (w : Option RegIndex) (k : Option KeyIndex) : (s.setWait w k).mem = s.mem := rfl
@[simp] theorem State.fb_setWait (w : Option RegIndex) (k : Option KeyIndex) : (s.setWait w k).fb = s.fb := rfl
@[simp] theorem State.keys_setWait (w : Option RegIndex) (k : Option KeyIndex) : (s.setWait w k).keys = s.keys := rfl
@[simp] theorem State.wait_setWait (w : Option RegIndex) (k : Option KeyIndex) : (s.setWait w k).wait = w := rfl
@[simp] theorem State.klatch_setWait (w : Option RegIndex) (k : Option KeyIndex) : (s.setWait w k).klatch = k := rfl
@[simp] theorem State.draws_setWait (w : Option RegIndex) (k : Option KeyIndex) : (s.setWait w k).draws = s.draws := rfl
@[simp] theorem State.requests_setWait (w : Option RegIndex) (k : Option KeyIndex) : (s.setWait w k).requests = s.requests := rfl

/-! ### `countDraw` -/

@[simp] theorem State.v_countDraw : (s.countDraw).v = s.v := rfl
@[simp] theorem State.pc_countDraw : (s.countDraw).pc = s.pc := rfl
@[simp] theorem State.index_countDraw : (s.countDraw).index = s.index := rfl
@[simp] theorem State.sp_countDraw : (s.countDraw).sp = s.sp := rfl
@[simp] theorem State.stack_countDraw : (s.countDraw).stack = s.stack := rfl
@[simp] theorem State.dt_countDraw : (s.countDraw).dt = s.dt := rfl
@[simp] theorem State.st_countDraw : (s.countDraw).st = s.st := rfl
@[simp] theorem State.mem_countDraw : (s.countDraw).mem = s.mem := rfl
@[simp] theorem State.fb_countDraw : (s.countDraw).fb = s.fb := rfl
@[simp] theorem State.keys_countDraw : (s.countDraw).keys = s.keys := rfl
@[simp] theorem State.wait_countDraw : (s.countDraw).wait = s.wait := rfl
@[simp] theorem State.klatch_countDraw : (s.countDraw).klatch = s.klatch := rfl
@[simp] theorem State.draws_countDraw : (s.countDraw).draws = s.draws + 1 := rfl
@[simp] theorem State.requests_countDraw : (s.countDraw).requests = s.requests := rfl

/-! ### `setRequests` -/

@[simp] theorem State.v_setRequests (ts : List Transition) : (s.setRequests ts).v = s.v := rfl
@[simp] theorem State.pc_setRequests (ts : List Transition) : (s.setRequests ts).pc = s.pc := rfl
@[simp] theorem State.index_setRequests (ts : List Transition) : (s.setRequests ts).index = s.index := rfl
@[simp] theorem State.sp_setRequests (ts : List Transition) : (s.setRequests ts).sp = s.sp := rfl
@[simp] theorem State.stack_setRequests (ts : List Transition) : (s.setRequests ts).stack = s.stack := rfl
@[simp] theorem State.dt_setRequests (ts : List Transition) : (s.setRequests ts).dt = s.dt := rfl
@[simp] theorem State.st_setRequests (ts : List Transition) : (s.setRequests ts).st = s.st := rfl
@[simp] theorem State.mem_setRequests (ts : List Transition) : (s.setRequests ts).mem = s.mem := rfl
@[simp] theorem State.fb_setRequests (ts : List Transition) : (s.setRequests ts).fb = s.fb := rfl
@[simp] theorem State.keys_setRequests (ts : List Transition) : (s.setRequests ts).keys = s.keys := rfl
@[simp] theorem State.wait_setRequests (ts : List Transition) : (s.setRequests ts).wait = s.wait := rfl
@[simp] theorem State.klatch_setRequests (ts : List Transition) : (s.setRequests ts).klatch = s.klatch := rfl
@[simp] theorem State.draws_setRequests (ts : List Transition) : (s.setRequests ts).draws = s.draws := rfl
@[simp] theorem State.requests_setRequests (ts : List Transition) : (s.setRequests ts).requests = ts := rfl

/-! ### `tick` -/

@[simp] theorem State.v_tick : (s.tick).v = s.v := rfl
@[simp] theorem State.pc_tick : (s.tick).pc = s.pc := rfl
@[simp] theorem State.index_tick : (s.tick).index = s.index := rfl
@[simp] theorem State.sp_tick : (s.tick).sp = s.sp := rfl
@[simp] theorem State.stack_tick : (s.tick).stack = s.stack := rfl
@[simp] theorem State.dt_tick : (s.tick).dt = countDown s.dt := rfl
@[simp] theorem State.st_tick : (s.tick).st = countDown s.st := rfl
@[simp] theorem State.mem_tick : (s.tick).mem = s.mem := rfl
@[simp] theorem State.fb_tick : (s.tick).fb = s.fb := rfl
@[simp] theorem State.keys_tick : (s.tick).keys = s.keys := rfl
@[simp] theorem State.wait_tick : (s.tick).wait = s.wait := rfl
@[simp] theorem State.klatch_tick : (s.tick).klatch = s.klatch := rfl
@[simp] theorem State.draws_tick : (s.tick).draws = s.draws := rfl
@[simp] theorem State.requests_tick : (s.tick).requests = s.requests := rfl

/-! ### `keyEvent` -/

@[simp] theorem State.v_keyEvent (k : KeyIndex) (p : Bool) : (s.keyEvent k p).v = s.v := rfl
@[simp] theorem State.pc_keyEvent (k : KeyIndex) (p : Bool) : (s.keyEvent k p).pc = s.pc := rfl
@[simp] theorem State.index_keyEvent (k : KeyIndex) (p : Bool) : (s.keyEvent k p).index = s.index := rfl
@[simp] theorem State.sp_keyEvent (k : KeyIndex) (p : Bool) : (s.keyEvent k p).sp = s.sp := rfl
@[simp] theorem State.stack_keyEvent (k : KeyIndex) (p : Bool) : (s.keyEvent k p).stack = s.stack := rfl
@[simp] theorem State.dt_keyEvent (k : KeyIndex) (p : Bool) : (s.keyEvent k p).dt = s.dt := rfl
@[simp] theorem State.st_keyEvent (k : KeyIndex) (p : Bool) : (s.keyEvent k p).st = s.st := rfl
@[simp] theorem State.mem_keyEvent (k : KeyIndex) (p : Bool) : (s.keyEvent k p).mem = s.mem := rfl
@[simp] theorem State.fb_keyEvent (k : KeyIndex) (p : Bool) : (s.keyEvent k p).fb = s.fb := rfl
@[simp] theorem State.wait_keyEvent (k : KeyIndex) (p : Bool) : (s.keyEvent k p).wait = s.wait := rfl
@[simp] theorem State.klatch_keyEvent (k : KeyIndex) (p : Bool) : (s.keyEvent k p).klatch = latchAfter s.wait s.klatch k p := rfl
@[simp] theorem State.draws_keyEvent (k : KeyIndex) (p : Bool) : (s.keyEvent k p).draws = s.draws := rfl
@[simp] theorem State.requests_keyEvent (k : KeyIndex) (p : Bool) : (s.keyEvent k p).requests = s.requests := rfl

/-! ### `restart` -/

@[simp] theorem State.v_restart : s.restart.v = State.reset.v := rfl
@[simp] theorem State.pc_restart : s.restart.pc = State.reset.pc := rfl
@[simp] theorem State.index_restart : s.restart.index = State.reset.index := rfl
@[simp] theorem State.sp_restart : s.restart.sp = State.reset.sp := rfl
@[simp] theorem State.stack_restart : s.restart.stack = State.reset.stack := rfl
@[simp] theorem State.dt_restart : s.restart.dt = State.reset.dt := rfl
@[simp] theorem State.st_restart : s.restart.st = State.reset.st := rfl
@[simp] theorem State.mem_restart : s.restart.mem = State.reset.mem := rfl
@[simp] theorem State.fb_restart : s.restart.fb = State.reset.fb := rfl
@[simp] theorem State.keys_restart : s.restart.keys = State.reset.keys := rfl
@[simp] theorem State.wait_restart : s.restart.wait = State.reset.wait := rfl
@[simp] theorem State.klatch_restart : s.restart.klatch = State.reset.klatch := rfl
@[simp] theorem State.draws_restart : s.restart.draws = s.draws := rfl
@[simp] theorem State.requests_restart : s.restart.requests = s.requests := rfl

/-! ### `skipIf`, by cases on the condition -/

@[simp] theorem State.pc_skipIf (c : Bool) :
    (s.skipIf c).pc = if c then s.pc + 4 else s.pc + 2 := by
  cases c <;> rfl
@[simp] theorem State.v_skipIf (c : Bool) : (s.skipIf c).v = s.v := by cases c <;> rfl
@[simp] theorem State.index_skipIf (c : Bool) : (s.skipIf c).index = s.index := by cases c <;> rfl
@[simp] theorem State.sp_skipIf (c : Bool) : (s.skipIf c).sp = s.sp := by cases c <;> rfl
@[simp] theorem State.stack_skipIf (c : Bool) : (s.skipIf c).stack = s.stack := by cases c <;> rfl
@[simp] theorem State.dt_skipIf (c : Bool) : (s.skipIf c).dt = s.dt := by cases c <;> rfl
@[simp] theorem State.st_skipIf (c : Bool) : (s.skipIf c).st = s.st := by cases c <;> rfl
@[simp] theorem State.mem_skipIf (c : Bool) : (s.skipIf c).mem = s.mem := by cases c <;> rfl
@[simp] theorem State.fb_skipIf (c : Bool) : (s.skipIf c).fb = s.fb := by cases c <;> rfl
@[simp] theorem State.keys_skipIf (c : Bool) : (s.skipIf c).keys = s.keys := by cases c <;> rfl
@[simp] theorem State.wait_skipIf (c : Bool) : (s.skipIf c).wait = s.wait := by cases c <;> rfl
@[simp] theorem State.klatch_skipIf (c : Bool) : (s.skipIf c).klatch = s.klatch := by cases c <;> rfl
@[simp] theorem State.draws_skipIf (c : Bool) : (s.skipIf c).draws = s.draws := by cases c <;> rfl
@[simp] theorem State.requests_skipIf (c : Bool) : (s.skipIf c).requests = s.requests := by cases c <;> rfl

/-! ### Views of the state -/

@[simp] theorem State.readV_setPc (w : Word) (r : RegIndex) : (s.setPc w).readV r = s.readV r := rfl
@[simp] theorem State.readV_advance (r : RegIndex) : (s.advance).readV r = s.readV r := rfl
@[simp] theorem State.readV_setIndex (w : Word) (r : RegIndex) : (s.setIndex w).readV r = s.readV r := rfl
@[simp] theorem State.readV_setDT (b : Byte) (r : RegIndex) : (s.setDT b).readV r = s.readV r := rfl
@[simp] theorem State.readV_setST (b : Byte) (r : RegIndex) : (s.setST b).readV r = s.readV r := rfl
@[simp] theorem State.readV_setFB (fb : FrameBuffer) (r : RegIndex) : (s.setFB fb).readV r = s.readV r := rfl
@[simp] theorem State.readV_writeBlock (bs : List Byte) (r : RegIndex) : (s.writeBlock bs).readV r = s.readV r := rfl
@[simp] theorem State.readV_setWait (w : Option RegIndex) (k : Option KeyIndex) (r : RegIndex) : (s.setWait w k).readV r = s.readV r := rfl
@[simp] theorem State.readV_countDraw (r : RegIndex) : (s.countDraw).readV r = s.readV r := rfl
@[simp] theorem State.readV_setRequests (ts : List Transition) (r : RegIndex) : (s.setRequests ts).readV r = s.readV r := rfl
@[simp] theorem State.readV_tick (r : RegIndex) : (s.tick).readV r = s.readV r := rfl
@[simp] theorem State.readV_keyEvent (k : KeyIndex) (p : Bool) (r : RegIndex) : (s.keyEvent k p).readV r = s.readV r := rfl
@[simp] theorem State.readV_skipIf (c : Bool) (r : RegIndex) : (s.skipIf c).readV r = s.readV r := by cases c <;> rfl
@[simp] theorem State.readMem_writeV (x : RegIndex) (b : Byte) (a : Nat) : (s.writeV x b).readMem a = s.readMem a := rfl
@[simp] theorem State.readMem_setPc (w : Word) (a : Nat) : (s.setPc w).readMem a = s.readMem a := rfl
@[simp] theorem State.readMem_advance (a : Nat) : (s.advance).readMem a = s.readMem a := rfl
@[simp] theorem State.readMem_setIndex (w : Word) (a : Nat) : (s.setIndex w).readMem a = s.readMem a := rfl
@[simp] theorem State.readMem_setDT (b : Byte) (a : Nat) : (s.setDT b).readMem a = s.readMem a := rfl
@[simp] theorem State.readMem_setST (b : Byte) (a : Nat) : (s.setST b).readMem a = s.readMem a := rfl
@[simp] theorem State.readMem_setFB (fb : FrameBuffer) (a : Nat) : (s.setFB fb).readMem a = s.readMem a := rfl
@[simp] theorem State.readMem_setWait (w : Option RegIndex) (k : Option KeyIndex) (a : Nat) : (s.setWait w k).readMem a = s.readMem a := rfl
@[simp] theorem State.readMem_countDraw (a : Nat) : (s.countDraw).readMem a = s.readMem a := rfl
@[simp] theorem State.readMem_setRequests (ts : List Transition) (a : Nat) : (s.setRequests ts).readMem a = s.readMem a := rfl
@[simp] theorem State.readMem_tick (a : Nat) : (s.tick).readMem a = s.readMem a := rfl
@[simp] theorem State.readMem_keyEvent (k : KeyIndex) (p : Bool) (a : Nat) : (s.keyEvent k p).readMem a = s.readMem a := rfl
@[simp] theorem State.readMem_skipIf (c : Bool) (a : Nat) : (s.skipIf c).readMem a = s.readMem a := by cases c <;> rfl
@[simp] theorem State.keyDown_writeV (x : RegIndex) (b : Byte) (k : KeyIndex) : (s.writeV x b).keyDown k = s.keyDown k := rfl
@[simp] theorem State.keyDown_setPc (w : Word) (k : KeyIndex) : (s.setPc w).keyDown k = s.keyDown k := rfl
@[simp] theorem State.keyDown_advance (k : KeyIndex) : (s.advance).keyDown k = s.keyDown k := rfl
@[simp] theorem State.keyDown_setIndex (w : Word) (k : KeyIndex) : (s.setIndex w).keyDown k = s.keyDown k := rfl
@[simp] theorem State.keyDown_setDT (b : Byte) (k : KeyIndex) : (s.setDT b).keyDown k = s.keyDown k := rfl
@[simp] theorem State.keyDown_setST (b : Byte) (k : KeyIndex) : (s.setST b).keyDown k = s.keyDown k := rfl
@[simp] theorem State.keyDown_setFB (fb : FrameBuffer) (k : KeyIndex) : (s.setFB fb).keyDown k = s.keyDown k := rfl
@[simp] theorem State.keyDown_writeBlock (bs : List Byte) (k : KeyIndex) : (s.writeBlock bs).keyDown k = s.keyDown k := rfl
@[simp] theorem State.keyDown_setWait (w : Option RegIndex) (l : Option KeyIndex) (k : KeyIndex) : (s.setWait w l).keyDown k = s.keyDown k := rfl
@[simp] theorem State.keyDown_countDraw (k : KeyIndex) : (s.countDraw).keyDown k = s.keyDown k := rfl
@[simp] theorem State.keyDown_setRequests (ts : List Transition) (k : KeyIndex) : (s.setRequests ts).keyDown k = s.keyDown k := rfl
@[simp] theorem State.keyDown_tick (k : KeyIndex) : (s.tick).keyDown k = s.keyDown k := rfl
@[simp] theorem State.keyDown_skipIf (c : Bool) (k : KeyIndex) : (s.skipIf c).keyDown k = s.keyDown k := by cases c <;> rfl
@[simp] theorem State.pixel_writeV (x : RegIndex) (b : Byte) (cx cy : Nat) : (s.writeV x b).pixel cx cy = s.pixel cx cy := rfl
@[simp] theorem State.pixel_setPc (w : Word) (cx cy : Nat) : (s.setPc w).pixel cx cy = s.pixel cx cy := rfl
@[simp] theorem State.pixel_advance (cx cy : Nat) : (s.advance).pixel cx cy = s.pixel cx cy := rfl
@[simp] theorem State.pixel_setIndex (w : Word) (cx cy : Nat) : (s.setIndex w).pixel cx cy = s.pixel cx cy := rfl
@[simp] theorem State.pixel_setDT (b : Byte) (cx cy : Nat) : (s.setDT b).pixel cx cy = s.pixel cx cy := rfl
@[simp] theorem State.pixel_setST (b : Byte) (cx cy : Nat) : (s.setST b).pixel cx cy = s.pixel cx cy := rfl
@[simp] theorem State.pixel_writeBlock (bs : List Byte) (cx cy : Nat) : (s.writeBlock bs).pixel cx cy = s.pixel cx cy := rfl
@[simp] theorem State.pixel_setWait (w : Option RegIndex) (k : Option KeyIndex) (cx cy : Nat) : (s.setWait w k).pixel cx cy = s.pixel cx cy := rfl
@[simp] theorem State.pixel_countDraw (cx cy : Nat) : (s.countDraw).pixel cx cy = s.pixel cx cy := rfl
@[simp] theorem State.pixel_setRequests (ts : List Transition) (cx cy : Nat) : (s.setRequests ts).pixel cx cy = s.pixel cx cy := rfl
@[simp] theorem State.pixel_tick (cx cy : Nat) : (s.tick).pixel cx cy = s.pixel cx cy := rfl
@[simp] theorem State.pixel_keyEvent (k : KeyIndex) (p : Bool) (cx cy : Nat) : (s.keyEvent k p).pixel cx cy = s.pixel cx cy := rfl
@[simp] theorem State.pixel_skipIf (c : Bool) (cx cy : Nat) : (s.skipIf c).pixel cx cy = s.pixel cx cy := by cases c <;> rfl
@[simp] theorem State.halted_writeV (x : RegIndex) (b : Byte) : (s.writeV x b).halted = s.halted := rfl
@[simp] theorem State.halted_setIndex (w : Word) : (s.setIndex w).halted = s.halted := rfl
@[simp] theorem State.halted_setDT (b : Byte) : (s.setDT b).halted = s.halted := rfl
@[simp] theorem State.halted_setST (b : Byte) : (s.setST b).halted = s.halted := rfl
@[simp] theorem State.halted_setFB (fb : FrameBuffer) : (s.setFB fb).halted = s.halted := rfl
@[simp] theorem State.halted_writeBlock (bs : List Byte) : (s.writeBlock bs).halted = s.halted := rfl
@[simp] theorem State.halted_setWait (w : Option RegIndex) (k : Option KeyIndex) : (s.setWait w k).halted = s.halted := rfl
@[simp] theorem State.halted_countDraw : (s.countDraw).halted = s.halted := rfl
@[simp] theorem State.halted_setRequests (ts : List Transition) : (s.setRequests ts).halted = s.halted := rfl
@[simp] theorem State.halted_tick : (s.tick).halted = s.halted := rfl
@[simp] theorem State.halted_keyEvent (k : KeyIndex) (p : Bool) : (s.keyEvent k p).halted = s.halted := rfl

end Sys2Proof.Machine
end

