-- ==== Sys2Proof/Laws/Ops.lean ====
section
/-! SUPPORT. One lemma per shared operation over registers, stack, blocks, pixels and keys, saying all
that the operation can do. -/

namespace Sys2Proof.Machine

/-! ### Registers -/

@[simp] theorem State.readV_writeV (s : State) (x r : RegIndex) (b : Byte) :
    (s.writeV x b).readV r = if r = x then b else s.readV r := by
  unfold State.readV State.writeV
  simp only [Vector.getElem_set]
  by_cases h : x = r
  · subst h
    simp
  · have hne : x.toNat ≠ r.toNat := fun e => h (BitVec.eq_of_toNat_eq e)
    have h' : r ≠ x := Ne.symm h
    simp [hne, h']

@[simp] theorem State.readV_writeFlagThenResult (s : State) (x r : RegIndex) (f : Bool) (b : Byte) :
    (s.writeFlagThenResult x f b).readV r =
      if r = x then b else if r = flagReg then flagByte f else s.readV r := by
  simp [State.writeFlagThenResult]

/-- `writeFlagThenResult` changes no field but the registers. -/
theorem State.writeFlagThenResult_eq (s : State) (x : RegIndex) (f : Bool) (b : Byte) :
    s.writeFlagThenResult x f b = { s with v := (s.writeFlagThenResult x f b).v } := rfl

/-- `writeVs` changes no field but the registers. -/
theorem State.writeVs_eq (k : Nat) (bs : List Byte) (s : State) :
    State.writeVs k bs s = { s with v := (State.writeVs k bs s).v } := by
  induction bs generalizing k s with
  | nil => rfl
  | cons b bs ih =>
    rw [State.writeVs, ih]
    rfl

/-- After `writeVs` the registers from `k` on hold the bytes of the list, and the others are kept. -/
theorem State.readV_writeVs (k : Nat) (bs : List Byte) (s : State) (hlen : k + bs.length ≤ 16)
    (r : RegIndex) :
    (State.writeVs k bs s).readV r =
      if h : k ≤ r.toNat ∧ r.toNat < k + bs.length then bs[r.toNat - k]'(by omega)
      else s.readV r := by
  induction bs generalizing k s with
  | nil =>
    have : ¬ (k ≤ r.toNat ∧ r.toNat < k + ([] : List Byte).length) := by simp
    rw [dif_neg this]
    rfl
  | cons b bs ih =>
    have hlen' : k + 1 + bs.length ≤ 16 := by simpa [Nat.add_assoc, Nat.add_comm] using hlen
    rw [State.writeVs, ih (k + 1) _ hlen']
    have hk : (BitVec.ofNat 4 k).toNat = k := by
      rw [BitVec.toNat_ofNat]
      exact Nat.mod_eq_of_lt (by omega)
    by_cases h1 : k + 1 ≤ r.toNat ∧ r.toNat < k + 1 + bs.length
    · have h2 : k ≤ r.toNat ∧ r.toNat < k + (b :: bs).length := by
        simp only [List.length_cons]
        omega
      rw [dif_pos h1, dif_pos h2]
      have : r.toNat - k = (r.toNat - (k + 1)) + 1 := by omega
      simp [this]
    · rw [dif_neg h1, State.readV_writeV]
      by_cases hr : r = BitVec.ofNat 4 k
      · have hrk : r.toNat = k := by rw [hr, hk]
        have h2 : k ≤ r.toNat ∧ r.toNat < k + (b :: bs).length := by
          simp only [List.length_cons]
          omega
        rw [if_pos hr, dif_pos h2]
        simp [hrk]
      · have hrk : r.toNat ≠ k := fun e => hr (BitVec.eq_of_toNat_eq (by rw [e, hk]))
        have h2 : ¬ (k ≤ r.toNat ∧ r.toNat < k + (b :: bs).length) := by
          simp only [List.length_cons]
          omega
        rw [if_neg hr, dif_neg h2]

@[simp] theorem State.length_readVs (s : State) (n : Nat) : (s.readVs n).length = n := by
  simp [State.readVs]

@[simp] theorem State.getElem_readVs (s : State) (n k : Nat) (h : k < (s.readVs n).length) :
    (s.readVs n)[k] = s.readV (BitVec.ofNat 4 k) := by
  simp [State.readVs]

/-! ### Stack -/

/-- A push succeeds exactly when fewer than 16 addresses are held (10_state.md R29). -/
theorem State.push_of_lt {s : State} (r : Word) (h : s.sp.val < 16) :
    s.push r =
      some { s with stack := s.stack.set s.sp.val r h, sp := ⟨s.sp.val + 1, by omega⟩ } :=
  dif_pos h

theorem State.push_of_full {s : State} (r : Word) (h : s.sp.val = 16) : s.push r = none :=
  dif_neg (by omega)

/-- A pop succeeds exactly when an address is held (10_state.md R29). -/
theorem State.pop_of_pos {s : State} (h : 0 < s.sp.val) :
    s.pop =
      some (s.stack[s.sp.val - 1]'(by omega), { s with sp := ⟨s.sp.val - 1, by omega⟩ }) :=
  dif_pos h

theorem State.pop_of_empty {s : State} (h : s.sp.val = 0) : s.pop = none :=
  dif_neg (by omega)

/-! ### Blocks of memory -/

@[simp] theorem State.length_readBlock (s : State) (n : Nat) : (s.readBlock n).length = n := by
  simp [State.readBlock]

@[simp] theorem State.getElem_readBlock (s : State) (n k : Nat) (h : k < (s.readBlock n).length) :
    (s.readBlock n)[k] = s.readMem (ea s.index k) := by
  simp [State.readBlock]

/-- A stored block reads back at its addresses. -/
theorem State.readMem_writeBlock (s : State) (bs : List Byte) (hlen : bs.length ≤ 4096) (j : Nat)
    (hj : j < bs.length) : (s.writeBlock bs).readMem (ea s.index j) = bs[j] := by
  have := Memory.read_writeBlock s.index bs 0 s.mem (by omega) j hj
  rwa [Nat.zero_add] at this

/-- Outside the stored addresses memory reads as before. -/
theorem State.readMem_writeBlock_of_notMem (s : State) (bs : List Byte) (a : Nat)
    (h : ∀ j < bs.length, ea s.index j ≠ a) : (s.writeBlock bs).readMem a = s.readMem a :=
  Memory.read_writeBlock_of_notMem s.index bs a 0 s.mem fun j hj => by
    rw [Nat.zero_add]
    exact h j hj

/-! ### Pixels -/

/-- A pixel written is the pixel read, and no other pixel changes. -/
theorem FrameBuffer.pixel_setPixel (fb : FrameBuffer) (cx cy dx dy : Nat) (b : Bool) :
    FrameBuffer.pixel (FrameBuffer.setPixel fb cx cy b) dx dy =
      if dx % 64 = cx % 64 ∧ dy % 32 = cy % 32 then b else FrameBuffer.pixel fb dx dy := by
  unfold FrameBuffer.pixel FrameBuffer.setPixel
  by_cases hy : dy % 32 = cy % 32
  · by_cases hx : dx % 64 = cx % 64
    · simp [hy, hx]
    · simp [hy, hx, Ne.symm hx]
  · have hy' : ¬ cy % 32 = dy % 32 := Ne.symm hy
    simp [hy, hy']

@[simp] theorem FrameBuffer.pixel_blank (cx cy : Nat) :
    FrameBuffer.pixel FrameBuffer.blank cx cy = false := by
  simp [FrameBuffer.pixel, FrameBuffer.blank]

/-- One XOR of the sprite engine: the pixel after it, and whether a pixel has gone from on to off. -/
theorem pixel_xorPixel (c : Canvas) (cx cy dx dy : Nat) (bit : Bool) :
    (xorPixel c cx cy bit).fb.pixel dx dy =
      if dx % 64 = cx % 64 ∧ dy % 32 = cy % 32 then (c.fb.pixel cx cy ^^ bit)
      else c.fb.pixel dx dy :=
  FrameBuffer.pixel_setPixel _ _ _ _ _ _

/-- A collision is a lit pixel hit by a sprite bit of 1 (43_display.md R173). -/
theorem collision_xorPixel (c : Canvas) (cx cy : Nat) (bit : Bool) :
    (xorPixel c cx cy bit).collision = (c.collision || (c.fb.pixel cx cy && bit)) := by
  simp only [xorPixel]
  cases c.fb.pixel cx cy <;> cases bit <;> rfl

/-- The bit of a sprite row, drawn from column `ox`, that falls on column `dx`: at most one of the
first `n <= 64` positions does (43_display.md R171). -/
def rowBitAt (ox : Nat) (row : Byte) (n dx : Nat) : Bool :=
  (List.range n).any fun b => decide ((ox + b) % 64 = dx % 64) && spriteBit row b

theorem rowBitAt_succ (ox : Nat) (row : Byte) (n dx : Nat) :
    rowBitAt ox row (n + 1) dx =
      (rowBitAt ox row n dx || (decide ((ox + n) % 64 = dx % 64) && spriteBit row n)) := by
  simp [rowBitAt, List.range_succ, List.any_append]

/-- No earlier position of the row falls on the column of position `n` (43_display.md R171: no pixel is
touched twice). -/
theorem rowBitAt_of_later {ox n dx : Nat} (row : Byte) (hn : n < 64) (h : (ox + n) % 64 = dx % 64) :
    rowBitAt ox row n dx = false := by
  simp only [rowBitAt, List.any_eq_false, List.mem_range, Bool.and_eq_true, decide_eq_true_eq]
  rintro b hb ⟨he, -⟩
  omega

/-- A row of the sprite engine: every pixel after it. -/
theorem pixel_drawBits (ox cy : Nat) (row : Byte) (n : Nat) (hn : n ≤ 64) (c : Canvas)
    (dx dy : Nat) :
    (drawBits ox cy row n c).fb.pixel dx dy =
      (c.fb.pixel dx dy ^^ (decide (dy % 32 = cy % 32) && rowBitAt ox row n dx)) := by
  induction n generalizing dx dy with
  | zero => simp [drawBits, rowBitAt]
  | succ n ih =>
    rw [drawBits, pixel_xorPixel, Nat.mod_mod, Nat.mod_mod, rowBitAt_succ]
    by_cases h : dx % 64 = (ox + n) % 64 ∧ dy % 32 = cy % 32
    · have hsame : (drawBits ox cy row n c).fb.pixel ((ox + n) % 64) (cy % 32) =
          (drawBits ox cy row n c).fb.pixel dx dy := by
        simp only [FrameBuffer.pixel, Nat.mod_mod, h.1, h.2]
      rw [if_pos h, hsame, ih (by omega),
        rowBitAt_of_later row (by omega : n < 64) h.1.symm]
      simp [h.1, h.2]
    · rw [if_neg h, ih (by omega)]
      by_cases hy : dy % 32 = cy % 32
      · have hx : ¬ (ox + n) % 64 = dx % 64 := fun e => h ⟨e.symm, hy⟩
        simp [hx]
      · simp [hy]

/-- A row of the sprite engine: a collision is a lit pixel hit by a 1 bit of the row. -/
theorem collision_drawBits (ox cy : Nat) (row : Byte) (n : Nat) (hn : n ≤ 64) (c : Canvas) :
    (drawBits ox cy row n c).collision =
      (c.collision || (List.range n).any fun b => c.fb.pixel (ox + b) cy && spriteBit row b) := by
  induction n with
  | zero => simp [drawBits]
  | succ n ih =>
    have hold : (drawBits ox cy row n c).fb.pixel ((ox + n) % 64) (cy % 32) =
        c.fb.pixel (ox + n) cy := by
      rw [pixel_drawBits ox cy row n (by omega),
        rowBitAt_of_later row (by omega : n < 64) (Nat.mod_mod _ _).symm]
      simp [FrameBuffer.pixel]
    rw [drawBits, collision_xorPixel, hold, ih (by omega), List.range_succ, List.any_append]
    simp [Bool.or_assoc]

/-- The bit of a sprite, drawn from `(ox, oy)`, that falls on the pixel `(dx, dy)`: at most one of its
rows does (43_display.md R171). -/
def spriteBitAt (ox : Nat) : Nat → List Byte → Nat → Nat → Bool
  | _, [], _, _ => false
  | oy, row :: rows, dx, dy =>
    (decide (dy % 32 = oy % 32) && rowBitAt ox row 8 dx) || spriteBitAt ox (oy + 1) rows dx dy

theorem spriteBitAt_iff (ox oy : Nat) (rows : List Byte) (dx dy : Nat) :
    spriteBitAt ox oy rows dx dy = true ↔
      ∃ (r : Nat) (h : r < rows.length), dy % 32 = (oy + r) % 32 ∧ rowBitAt ox rows[r] 8 dx = true := by
  induction rows generalizing oy with
  | nil => simp [spriteBitAt]
  | cons row rows ih =>
    simp only [spriteBitAt, Bool.or_eq_true, Bool.and_eq_true, decide_eq_true_eq, ih]
    constructor
    · rintro (⟨hy, hb⟩ | ⟨r, hr, hy, hb⟩)
      · exact ⟨0, by simp, hy, hb⟩
      · exact ⟨r + 1, by simpa using hr, by rw [hy]; congr 1; omega, hb⟩
    · rintro ⟨_ | r, hr, hy, hb⟩
      · exact .inl ⟨hy, hb⟩
      · exact .inr ⟨r, by simpa using hr, by rw [hy]; congr 1; omega, hb⟩

/-- No later row falls on the row of the head (43_display.md R171: no pixel is touched twice). -/
theorem spriteBitAt_of_head {oy dy : Nat} (ox : Nat) (rows : List Byte) (dx : Nat)
    (hlen : rows.length < 32) (h : dy % 32 = oy % 32) : spriteBitAt ox (oy + 1) rows dx dy = false := by
  rw [Bool.eq_false_iff]
  intro ht
  obtain ⟨r, hr, hy, -⟩ := (spriteBitAt_iff _ _ _ _ _).mp ht
  omega

/-- Everything the sprite engine does to a pixel: it is XORed with the sprite's bit there. -/
theorem pixel_drawRows (ox oy : Nat) (rows : List Byte) (hlen : rows.length ≤ 32) (c : Canvas)
    (dx dy : Nat) :
    (drawRows ox oy rows c).fb.pixel dx dy =
      (c.fb.pixel dx dy ^^ spriteBitAt ox oy rows dx dy) := by
  induction rows generalizing oy c with
  | nil => simp [drawRows, spriteBitAt]
  | cons row rows ih =>
    have hlen' : rows.length < 32 := hlen
    rw [drawRows, ih _ (by omega), pixel_drawBits _ _ _ _ (by decide), spriteBitAt]
    by_cases hy : dy % 32 = oy % 32
    · rw [spriteBitAt_of_head ox rows dx hlen' hy]; simp
    · simp [hy]

/-- The collision detector: a collision is a lit pixel hit by a 1 bit (43_display.md R173). -/
theorem collision_drawRows (ox oy : Nat) (rows : List Byte) (hlen : rows.length ≤ 32) (c : Canvas) :
    (drawRows ox oy rows c).collision = true ↔ c.collision = true ∨
      ∃ dx dy, dx < 64 ∧ dy < 32 ∧ c.fb.pixel dx dy = true ∧
        spriteBitAt ox oy rows dx dy = true := by
  induction rows generalizing oy c with
  | nil => simp [drawRows, spriteBitAt]
  | cons row rows ih =>
    have hlen' : rows.length < 32 := hlen
    rw [drawRows, ih _ (by omega), collision_drawBits _ _ _ _ (by decide)]
    simp only [Bool.or_eq_true, List.any_eq_true, List.mem_range, Bool.and_eq_true,
      pixel_drawBits _ _ _ _ (by decide : 8 ≤ 64), spriteBitAt, decide_eq_true_eq]
    constructor
    · rintro ((hc | ⟨b, hb, hp, hs⟩) | ⟨dx, dy, hx, hy, hp, hs⟩)
      · exact .inl hc
      · refine .inr ⟨(ox + b) % 64, oy % 32, Nat.mod_lt _ (by decide), Nat.mod_lt _ (by decide),
          by simpa [FrameBuffer.pixel] using hp, .inl ⟨Nat.mod_mod _ _, ?_⟩⟩
        simp only [rowBitAt, List.any_eq_true, List.mem_range, Bool.and_eq_true, decide_eq_true_eq]
        exact ⟨b, hb, (Nat.mod_mod _ _).symm, hs⟩
      · refine .inr ⟨dx, dy, hx, hy, ?_, .inr hs⟩
        by_cases h : dy % 32 = oy % 32
        · rw [spriteBitAt_of_head ox rows dx hlen' h] at hs; cases hs
        · simpa [h] using hp
    · rintro (hc | ⟨dx, dy, hx, hy, hp, hs⟩)
      · exact .inl (.inl hc)
      · by_cases h : dy % 32 = oy % 32
        · rw [spriteBitAt_of_head ox rows dx hlen' h] at hs
          simp only [h, true_and, Bool.false_eq_true, or_false] at hs
          simp only [rowBitAt, List.any_eq_true, List.mem_range, Bool.and_eq_true, decide_eq_true_eq] at hs
          obtain ⟨b, hb, hcol, hbit⟩ := hs
          exact .inl (.inr ⟨b, hb, by simpa [FrameBuffer.pixel, hcol, h] using hp, hbit⟩)
        · rcases hs with hs | hs
          · exact absurd hs.1 h
          · exact .inr ⟨dx, dy, hx, hy, by simpa [h] using hp, hs⟩

/-! ### Keys -/

@[simp] theorem State.keyDown_keyEvent (s : State) (k j : KeyIndex) (p : Bool) :
    (s.keyEvent k p).keyDown j = if j = k then p else s.keyDown j := by
  unfold State.keyDown State.keyEvent
  simp only [Vector.getElem_set]
  by_cases h : k = j
  · subst h
    simp
  · have hne : k.toNat ≠ j.toNat := fun e => h (BitVec.eq_of_toNat_eq e)
    have h' : j ≠ k := Ne.symm h
    simp [hne, h']

end Sys2Proof.Machine
end

