-- ==== Sys2Proof/Laws/PerInstr.lean ====
section
/-! SUPPORT. Facts about every instruction as syntax, one lemma per constructor. The family
`TableRow`: an instruction's word belongs to the instruction's own row of the opcode map
(30_encoding.md R94), so no field of it disturbs the row's fixed bits. -/

namespace Sys2Proof.Laws

/-- A mask acts on the two parts of an appended word apart. -/
theorem append_and {a b : Nat} (p q : BitVec a) (r s : BitVec b) :
    (p ++ r) &&& (q ++ s) = (p &&& q) ++ (r &&& s) := by
  apply BitVec.eq_of_getLsbD_eq
  intro i _
  simp only [BitVec.getLsbD_and, BitVec.getLsbD_append]
  split <;> rfl

/-- A word of format `A` under the mask of its fixed nibble. -/
theorem and_mask_wordA (op : BitVec 4) (nnn : Addr) :
    wordA op nnn &&& 0xF000#16 = wordA op 0#12 := by
  have h : (0xF000#16 : Word) = 0xF#4 ++ 0x000#12 := rfl
  have hop : op &&& 0xF#4 = op := BitVec.and_allOnes
  rw [wordA, h]
  refine (append_and op 0xF#4 nnn 0x000#12).trans ?_
  rw [hop, BitVec.and_zero]
  rfl

/-- A word of format `XI` under the mask of its fixed nibble. -/
theorem and_mask_wordXI (op x : BitVec 4) (nn : Byte) :
    wordXI op x nn &&& 0xF000#16 = wordXI op 0#4 0#8 := by
  have h : (0xF000#16 : Word) = (0xF#4 ++ 0x0#4) ++ 0x00#8 := rfl
  have hop : op &&& 0xF#4 = op := BitVec.and_allOnes
  rw [wordXI, h]
  refine (append_and (op ++ x) (0xF#4 ++ 0x0#4) nn 0x00#8).trans ?_
  rw [append_and, hop, BitVec.and_zero, BitVec.and_zero]
  rfl

/-- A word of format `XF` under the mask of its fixed nibble and byte. -/
theorem and_mask_wordXF (op x : BitVec 4) (nn : Byte) :
    wordXI op x nn &&& 0xF0FF#16 = wordXI op 0#4 nn := by
  have h : (0xF0FF#16 : Word) = (0xF#4 ++ 0x0#4) ++ 0xFF#8 := rfl
  have hop : op &&& 0xF#4 = op := BitVec.and_allOnes
  have hnn : nn &&& 0xFF#8 = nn := BitVec.and_allOnes
  rw [wordXI, h]
  refine (append_and (op ++ x) (0xF#4 ++ 0x0#4) nn 0xFF#8).trans ?_
  rw [append_and, hop, hnn, BitVec.and_zero]
  rfl

/-- A word of format `XYN` under the mask of its fixed nibble. -/
theorem and_mask_wordXYN (op x y n : BitVec 4) :
    wordXYN op x y n &&& 0xF000#16 = wordXYN op 0#4 0#4 0#4 := by
  have h : (0xF000#16 : Word) = ((0xF#4 ++ 0x0#4) ++ 0x0#4) ++ 0x0#4 := rfl
  have hop : op &&& 0xF#4 = op := BitVec.and_allOnes
  rw [wordXYN, h]
  refine (append_and (op ++ x ++ y) (0xF#4 ++ 0x0#4 ++ 0x0#4) n 0x0#4).trans ?_
  rw [append_and, append_and, hop, BitVec.and_zero, BitVec.and_zero, BitVec.and_zero]
  rfl

/-- A word of format `XY` under the mask of its two fixed nibbles. -/
theorem and_mask_wordXY (op x y n : BitVec 4) :
    wordXYN op x y n &&& 0xF00F#16 = wordXYN op 0#4 0#4 n := by
  have h : (0xF00F#16 : Word) = ((0xF#4 ++ 0x0#4) ++ 0x0#4) ++ 0xF#4 := rfl
  have hop : op &&& 0xF#4 = op := BitVec.and_allOnes
  have hn : n &&& 0xF#4 = n := BitVec.and_allOnes
  rw [wordXYN, h]
  refine (append_and (op ++ x ++ y) (0xF#4 ++ 0x0#4 ++ 0x0#4) n 0xF#4).trans ?_
  rw [append_and, append_and, hop, hn, BitVec.and_zero, BitVec.and_zero]
  rfl

/-- The instruction's word, under the mask of its row, is the row's value. -/
def TableRow.Statement (i : Instr) : Prop := encodeWord i &&& (rowOf i).mask = (rowOf i).value

theorem TableRow.cls : Statement .cls := rfl
theorem TableRow.ret : Statement .ret := rfl
theorem TableRow.jp (nnn : Addr) : Statement (.jp nnn) := and_mask_wordA _ _
theorem TableRow.call (nnn : Addr) : Statement (.call nnn) := and_mask_wordA _ _
theorem TableRow.seImm (x : RegIndex) (nn : Byte) : Statement (.seImm x nn) := and_mask_wordXI _ _ _
theorem TableRow.sneImm (x : RegIndex) (nn : Byte) : Statement (.sneImm x nn) :=
  and_mask_wordXI _ _ _
theorem TableRow.seReg (x y : RegIndex) : Statement (.seReg x y) := and_mask_wordXY _ _ _ _
theorem TableRow.ldImm (x : RegIndex) (nn : Byte) : Statement (.ldImm x nn) := and_mask_wordXI _ _ _
theorem TableRow.addImm (x : RegIndex) (nn : Byte) : Statement (.addImm x nn) :=
  and_mask_wordXI _ _ _
theorem TableRow.ldReg (x y : RegIndex) : Statement (.ldReg x y) := and_mask_wordXY _ _ _ _
theorem TableRow.orReg (x y : RegIndex) : Statement (.orReg x y) := and_mask_wordXY _ _ _ _
theorem TableRow.andReg (x y : RegIndex) : Statement (.andReg x y) := and_mask_wordXY _ _ _ _
theorem TableRow.xorReg (x y : RegIndex) : Statement (.xorReg x y) := and_mask_wordXY _ _ _ _
theorem TableRow.addReg (x y : RegIndex) : Statement (.addReg x y) := and_mask_wordXY _ _ _ _
theorem TableRow.subReg (x y : RegIndex) : Statement (.subReg x y) := and_mask_wordXY _ _ _ _
theorem TableRow.shr (x y : RegIndex) : Statement (.shr x y) := and_mask_wordXY _ _ _ _
theorem TableRow.subnReg (x y : RegIndex) : Statement (.subnReg x y) := and_mask_wordXY _ _ _ _
theorem TableRow.shl (x y : RegIndex) : Statement (.shl x y) := and_mask_wordXY _ _ _ _
theorem TableRow.sneReg (x y : RegIndex) : Statement (.sneReg x y) := and_mask_wordXY _ _ _ _
theorem TableRow.ldI (nnn : Addr) : Statement (.ldI nnn) := and_mask_wordA _ _
theorem TableRow.jpV0 (nnn : Addr) : Statement (.jpV0 nnn) := and_mask_wordA _ _
theorem TableRow.rnd (x : RegIndex) (nn : Byte) : Statement (.rnd x nn) := and_mask_wordXI _ _ _
theorem TableRow.drw (x y : RegIndex) (n : BitVec 4) : Statement (.drw x y n) :=
  and_mask_wordXYN _ _ _ _
theorem TableRow.skp (x : RegIndex) : Statement (.skp x) := and_mask_wordXF _ _ _
theorem TableRow.sknp (x : RegIndex) : Statement (.sknp x) := and_mask_wordXF _ _ _
theorem TableRow.ldVxDT (x : RegIndex) : Statement (.ldVxDT x) := and_mask_wordXF _ _ _
theorem TableRow.ldVxK (x : RegIndex) : Statement (.ldVxK x) := and_mask_wordXF _ _ _
theorem TableRow.ldDTVx (x : RegIndex) : Statement (.ldDTVx x) := and_mask_wordXF _ _ _
theorem TableRow.ldSTVx (x : RegIndex) : Statement (.ldSTVx x) := and_mask_wordXF _ _ _
theorem TableRow.addI (x : RegIndex) : Statement (.addI x) := and_mask_wordXF _ _ _
theorem TableRow.ldF (x : RegIndex) : Statement (.ldF x) := and_mask_wordXF _ _ _
theorem TableRow.ldB (x : RegIndex) : Statement (.ldB x) := and_mask_wordXF _ _ _
theorem TableRow.storeRegs (x : RegIndex) : Statement (.storeRegs x) := and_mask_wordXF _ _ _
theorem TableRow.loadRegs (x : RegIndex) : Statement (.loadRegs x) := and_mask_wordXF _ _ _

end Sys2Proof.Laws
end

