-- ==== Sys2Proof/Laws/Step.lean ====
section
/-! SUPPORT. What a step can do, said once: the cases of the interpreter's `step`
(30_encoding.md R105), of a transition, and of the machine's `step`. -/

namespace Sys2Proof.Machine

/-- With nothing requested the machine's step is the interpreter's. -/
theorem step_of_no_requests {s : State} (h : s.requests = []) : step s = interpret s := by
  simp [step, nextTransition, h]

/-- With a request the machine's step performs it and takes it off the list. -/
theorem step_of_request {s : State} {t : Transition} {ts : List Transition}
    (h : s.requests = t :: ts) : step s = perform t (s.setRequests ts) := by
  simp [step, nextTransition, h]

theorem interpret_of_waiting {s : State} {x : RegIndex} (hw : s.wait = some x)
    (hk : s.klatch = none) : interpret s = .next s := by
  simp [interpret, hw, hk]

theorem interpret_of_latched {s : State} {x : RegIndex} {k : KeyIndex} (hw : s.wait = some x)
    (hk : s.klatch = some k) : interpret s = .next (s.completeWait x k) := by
  simp [interpret, hw, hk]

theorem interpret_of_halted {s : State} (hw : s.wait = none) (hh : s.halted = true) :
    interpret s = .next s := by
  simp [interpret, hw, hh]

theorem interpret_of_decoded {s : State} {i : Instr} (hw : s.wait = none) (hh : s.halted = false)
    (hd : decodeWord s.fetchWord = .ok i) : interpret s = exec i s := by
  simp [interpret, hw, hh, hd]

theorem interpret_of_invalid {s : State} {e : DecodeError} (hw : s.wait = none)
    (hh : s.halted = false) (hd : decodeWord s.fetchWord = .error e) :
    interpret s = .next s.advance := by
  simp [interpret, hw, hh, hd]

/-- Everything the interpreter's `step` can do. -/
theorem interpret_cases (s : State) :
    (∃ x, s.wait = some x ∧ s.klatch = none ∧ interpret s = .next s) ∨
    (∃ x k, s.wait = some x ∧ s.klatch = some k ∧ interpret s = .next (s.completeWait x k)) ∨
    (s.wait = none ∧ s.halted = true ∧ interpret s = .next s) ∨
    (∃ i, s.wait = none ∧ s.halted = false ∧ decodeWord s.fetchWord = .ok i ∧
      interpret s = exec i s) ∨
    (∃ e, s.wait = none ∧ s.halted = false ∧ decodeWord s.fetchWord = .error e ∧
      interpret s = .next s.advance) := by
  rcases hw : s.wait with _ | x
  · rcases hh : s.halted with _ | _
    · rcases hd : decodeWord s.fetchWord with e | i
      · exact .inr (.inr (.inr (.inr ⟨e, rfl, rfl, rfl, interpret_of_invalid hw hh hd⟩)))
      · exact .inr (.inr (.inr (.inl ⟨i, rfl, rfl, rfl, interpret_of_decoded hw hh hd⟩)))
    · exact .inr (.inr (.inl ⟨rfl, rfl, interpret_of_halted hw hh⟩))
  · rcases hk : s.klatch with _ | k
    · exact .inl ⟨x, rfl, rfl, interpret_of_waiting hw hk⟩
    · exact .inr (.inl ⟨x, k, rfl, rfl, interpret_of_latched hw hk⟩)

/-- Everything one step of the machine can do: the interpreter's step, or the oldest request. -/
theorem step_cases (s : State) :
    (s.requests = [] ∧ step s = interpret s) ∨
    (∃ t ts, s.requests = t :: ts ∧ step s = perform t (s.setRequests ts)) := by
  rcases h : s.requests with _ | ⟨t, ts⟩
  · exact .inl ⟨rfl, step_of_no_requests h⟩
  · exact .inr ⟨t, ts, rfl, step_of_request h⟩

end Sys2Proof.Machine
end

