-- ==== Sys2Proof/Tests/Slice0.lean ====
section
/-! SUPPORT. Tests. Every expected value is the spec's: the vectors of 95_test_vectors.md (named by their
ids) or the examples of the rules. Each runs one step on a small state. -/

namespace Sys2Proof.Tests

open Sys2Proof.Machine

/-! ### Well-formedness -/

/-- L1: 3583 bytes are accepted. -/
theorem test_program_largest_accepted :
    programWellFormed (List.replicate 3583 0) = true := by
  rw [programWellFormed, List.length_replicate]
  rfl

/-- L2: 3584 bytes are refused. -/
theorem test_program_too_large_refused :
    programWellFormed (List.replicate 3584 0) = false := by
  rw [programWellFormed, List.length_replicate]
  rfl

/-! ### Decoding: one word per constructor, written from its pattern (30_encoding.md R94) -/

theorem test_decode_cls : decodeTableWord 16 0b0000000011100000 = some .cls := by decide
theorem test_decode_ret : decodeTableWord 16 0b0000000011101110 = some .ret := by decide
theorem test_decode_jp : decodeTableWord 16 0b0001_0010_0000_0100 = some (.jp 0x204) := by decide
theorem test_decode_call : decodeTableWord 16 0b0010_1111_1111_1111 = some (.call 0xFFF) := by decide
theorem test_decode_seImm :
    decodeTableWord 16 0b0011_1010_0100_0010 = some (.seImm 10 0x42) := by decide
theorem test_decode_sneImm :
    decodeTableWord 16 0b0100_1010_0000_0111 = some (.sneImm 10 0x07) := by decide
theorem test_decode_seReg : decodeTableWord 16 0b0101_0001_0010_0000 = some (.seReg 1 2) := by decide
theorem test_decode_ldImm :
    decodeTableWord 16 0b0110_1010_0111_1111 = some (.ldImm 10 0x7F) := by decide
theorem test_decode_addImm :
    decodeTableWord 16 0b0111_0001_1111_1111 = some (.addImm 1 0xFF) := by decide
theorem test_decode_ldReg : decodeTableWord 16 0b1000_0001_0010_0000 = some (.ldReg 1 2) := by decide
theorem test_decode_orReg : decodeTableWord 16 0b1000_0001_0010_0001 = some (.orReg 1 2) := by decide
theorem test_decode_andReg :
    decodeTableWord 16 0b1000_0001_0010_0010 = some (.andReg 1 2) := by decide
theorem test_decode_xorReg :
    decodeTableWord 16 0b1000_0001_0010_0011 = some (.xorReg 1 2) := by decide
theorem test_decode_addReg :
    decodeTableWord 16 0b1000_1010_1011_0100 = some (.addReg 10 11) := by decide
theorem test_decode_subReg :
    decodeTableWord 16 0b1000_0001_0010_0101 = some (.subReg 1 2) := by decide
theorem test_decode_shr : decodeTableWord 16 0b1000_0001_0010_0110 = some (.shr 1 2) := by decide
theorem test_decode_subnReg :
    decodeTableWord 16 0b1000_0001_0010_0111 = some (.subnReg 1 2) := by decide
theorem test_decode_shl : decodeTableWord 16 0b1000_1111_1111_1110 = some (.shl 15 15) := by decide
theorem test_decode_sneReg :
    decodeTableWord 16 0b1001_1010_1011_0000 = some (.sneReg 10 11) := by decide
theorem test_decode_ldI : decodeTableWord 16 0b1010_0010_1111_0000 = some (.ldI 0x2F0) := by decide
theorem test_decode_jpV0 : decodeTableWord 16 0b1011_0011_0000_0000 = some (.jpV0 0x300) := by decide
theorem test_decode_rnd :
    decodeTableWord 16 0b1100_0011_0000_1111 = some (.rnd 3 0x0F) := by decide
theorem test_decode_drw : decodeTableWord 16 0b1101_0001_0010_0011 = some (.drw 1 2 3) := by decide
theorem test_decode_skp : decodeTableWord 16 0b1110_0001_1001_1110 = some (.skp 1) := by decide
theorem test_decode_sknp : decodeTableWord 16 0b1110_0001_1010_0001 = some (.sknp 1) := by decide
theorem test_decode_ldVxDT : decodeTableWord 16 0b1111_0001_0000_0111 = some (.ldVxDT 1) := by decide
theorem test_decode_ldVxK : decodeTableWord 16 0b1111_0001_0000_1010 = some (.ldVxK 1) := by decide
theorem test_decode_ldDTVx : decodeTableWord 16 0b1111_0001_0001_0101 = some (.ldDTVx 1) := by decide
theorem test_decode_ldSTVx : decodeTableWord 16 0b1111_0001_0001_1000 = some (.ldSTVx 1) := by decide
theorem test_decode_addI : decodeTableWord 16 0b1111_0001_0001_1110 = some (.addI 1) := by decide
theorem test_decode_ldF : decodeTableWord 16 0b1111_0001_0010_1001 = some (.ldF 1) := by decide
theorem test_decode_ldB : decodeTableWord 16 0b1111_0001_0011_0011 = some (.ldB 1) := by decide
theorem test_decode_storeRegs :
    decodeTableWord 16 0b1111_0001_0101_0101 = some (.storeRegs 1) := by decide
theorem test_decode_loadRegs :
    decodeTableWord 16 0b1111_0001_0110_0101 = some (.loadRegs 1) := by decide

/-- E3, E4, E8, E10, E12, E17, E19, E20: words of no row are rejected. -/
theorem test_decode_rejects :
    [0x0000, 0x00E1, 0x01E0, 0x0FFF, 0x5121, 0x512F, 0x9AB1, 0x8128, 0x812D, 0x812F, 0xE19F, 0xE1FF,
      0xF100, 0xF108, 0xF130, 0xF175, 0xF1FF, 0xFFFF].map (decodeTableWord 16) =
      List.replicate 18 none := by decide

/-- Fewer than two bytes are no instruction. -/
theorem test_decode_truncated : decode [0x12] = .error .truncated := by decide

/-! ### One step on a small state -/

/-- The state after reset with some general registers set. -/
def withV (vs : List (RegIndex × Byte)) : State :=
  vs.foldl (fun s p => s.writeV p.1 p.2) State.reset

/-- The state with bytes placed in memory. -/
def withMem (s : State) (base : Word) (bs : List Byte) : State :=
  { s with mem := s.mem.writeBlock base 0 bs }

/-- What `f` sees after the machine has run the word in one step. -/
def after {α : Type} (s : State) (w : Nat) (f : State → α) : Option α :=
  match step (s.withFetchWord 16 w) with
  | .next t => some (f t)
  | _ => none

/-- What the step of the word reports. -/
def reports (s : State) (w : Nat) : Report := report (s.withFetchWord 16 w)

/-- The lit pixels among some. -/
def lit (ps : List (Nat × Nat)) (t : State) : List (Nat × Nat) :=
  ps.filter fun p => t.pixel p.1 p.2

/-! ### Control transfer -/

/-- K3: an odd target is taken. -/
theorem test_jp_odd : after State.reset 0x1203 (·.pc) = some 0x0203 := by decide

/-- K4: a jump to `0xFFF` halts. -/
theorem test_jp_halts :
    (after State.reset 0x1FFF (·.pc), reports State.reset 0x1FFF) =
      (some 0x0FFF, .ok true false none) := by decide

/-- K7. -/
theorem test_call :
    after State.reset 0x2300 (fun t => (t.stack[0], t.sp, t.pc)) = some (0x0202, 1, 0x0300) := by
  decide

/-- K8: the pushed address is `PC + 2` also at the top of memory. -/
theorem test_call_at_top :
    after { State.reset with pc := 0x0FFE, sp := 3 } 0x2300 (fun t => (t.stack[3], t.sp, t.pc)) =
      some (0x1000, 4, 0x0300) := by decide

/-- K11: the popped entry stays in place. -/
theorem test_ret :
    after { State.reset with pc := 0x300, sp := 1, stack := State.reset.stack.set 0 0x0202 } 0x00EE
      (fun t => (t.sp, t.pc, t.stack[0])) = some (0, 0x0202, 0x0202) := by decide

/-- K10, K12: the two faults. -/
theorem test_stack_faults :
    (reports { State.reset with sp := 16 } 0x2300, reports State.reset 0x00EE) =
      (.fault .stackOverflow, .fault .stackUnderflow) := by decide

/-- K15: no 12-bit wrap. -/
theorem test_jpV0_no_wrap :
    (after (withV [(0, 0xFF)]) 0xBFFF (·.pc), reports (withV [(0, 0xFF)]) 0xBFFF) =
      (some 0x10FE, .ok true false none) := by decide

/-- K17: always `V[0]`, never `V[x]`. -/
theorem test_jpV0_register : after (withV [(1, 0x55)]) 0xB123 (·.pc) = some 0x0123 := by decide

/-- K18, K19. -/
theorem test_seImm :
    (after (withV [(10, 0x42)]) 0x3A42 (·.pc), after (withV [(10, 0x43)]) 0x3A42 (·.pc)) =
      (some 0x0204, some 0x0202) := by decide

/-- K29: a taken skip at the top halts. -/
theorem test_seImm_at_top :
    after { State.reset with pc := 0x0FFE } 0x3000 (·.pc) = some 0x1002 := by decide

/-- K20, K21. -/
theorem test_sneImm :
    (after (withV [(10, 0x42)]) 0x4A42 (·.pc), after (withV [(10, 0x43)]) 0x4A42 (·.pc)) =
      (some 0x0202, some 0x0204) := by decide

/-- K22, K23. -/
theorem test_seReg :
    (after (withV [(1, 0x33), (2, 0x33)]) 0x5120 (·.pc),
      after (withV [(1, 1), (2, 2)]) 0x5120 (·.pc)) = (some 0x0204, some 0x0202) := by decide

/-- K25, K26. -/
theorem test_sneReg :
    (after (withV [(1, 1), (2, 2)]) 0x9120 (·.pc),
      after (withV [(1, 2), (2, 2)]) 0x9120 (·.pc)) = (some 0x0204, some 0x0202) := by decide

/-! ### Immediate load, immediate add, index load, random -/

/-- I2. -/
theorem test_ldImm_vf :
    after State.reset 0x6F55 (fun t => (t.readV 15, t.pc)) = some (0x55, 0x0202) := by decide

/-- I4: no carry flag. -/
theorem test_addImm_wraps :
    after (withV [(1, 0xFF)]) 0x7101 (fun t => (t.readV 1, t.readV 15)) = some (0x00, 0) := by decide

/-- I8. -/
theorem test_ldI : after State.reset 0xAFFF (·.index) = some 0x0FFF := by decide

/-- I10: with a zero mask the result is 0 whatever is drawn. -/
theorem test_rnd_zero_mask :
    after State.reset 0xC300 (fun t => (t.readV 3, t.draws, t.pc)) = some (0, 1, 0x0202) := by
  have h : ∀ b : Byte, b &&& 0x00 = 0 := by decide
  have e : after State.reset 0xC300 (fun t => (t.readV 3, t.draws, t.pc)) =
      some (Config.randomByte 0 &&& 0x00, 1, 0x0202) := rfl
  rw [e, h]

/-! ### Register-to-register ALU -/

/-- A1. -/
theorem test_ldReg :
    after (withV [(1, 0x11), (2, 0x99)]) 0x8120 (fun t => (t.readV 1, t.readV 2)) =
      some (0x99, 0x99) := by decide

/-- A2: `VF` is not cleared. -/
theorem test_orReg :
    after (withV [(1, 0xF0), (2, 0x3C), (15, 1)]) 0x8121 (fun t => (t.readV 1, t.readV 15)) =
      some (0xFC, 1) := by decide

/-- A3. -/
theorem test_andReg :
    after (withV [(1, 0xF0), (2, 0x3C), (15, 1)]) 0x8122 (fun t => (t.readV 1, t.readV 15)) =
      some (0x30, 1) := by decide

/-- A4. -/
theorem test_xorReg :
    after (withV [(1, 0xF0), (2, 0x3C), (15, 1)]) 0x8123 (fun t => (t.readV 1, t.readV 15)) =
      some (0xCC, 1) := by decide

/-- A6. -/
theorem test_addReg :
    after (withV [(0, 0xC8), (1, 0x64)]) 0x8014 (fun t => (t.readV 0, t.readV 15)) =
      some (0x2C, 1) := by decide

/-- A22, A30: the result stays in `VF`; the operand is the old `VF`. -/
theorem test_addReg_vf :
    (after (withV [(15, 0x90)]) 0x8FF4 (·.readV 15),
      after (withV [(1, 0xFF), (15, 1)]) 0x81F4 (fun t => (t.readV 1, t.readV 15))) =
      (some 0x20, some (0x00, 1)) := by decide

/-- A9, A10: borrow, and equality is no borrow. -/
theorem test_subReg :
    (after (withV [(0, 0x05), (1, 0x07)]) 0x8015 (fun t => (t.readV 0, t.readV 15)),
      after (withV [(0, 0x42), (1, 0x42)]) 0x8015 (fun t => (t.readV 0, t.readV 15))) =
      (some (0xFE, 0), some (0x00, 1)) := by decide

/-- A23, A31. -/
theorem test_subReg_vf :
    (after (withV [(15, 0x05), (1, 0x07)]) 0x8F15 (·.readV 15),
      after (withV [(1, 0x00), (15, 1)]) 0x81F5 (fun t => (t.readV 1, t.readV 15))) =
      (some 0xFE, some (0xFF, 0)) := by decide

/-- A16: `V[y]` is neither read nor written. -/
theorem test_shr :
    after (withV [(1, 0xFF), (2, 0x10)]) 0x8126 (fun t => (t.readV 1, t.readV 15, t.readV 2)) =
      some (0x7F, 1, 0x10) := by decide

/-- A26. -/
theorem test_shr_vf : after (withV [(15, 0x03)]) 0x8F16 (·.readV 15) = some 0x01 := by decide

/-- A11, A12. -/
theorem test_subnReg :
    (after (withV [(0, 0x05), (1, 0x07)]) 0x8017 (fun t => (t.readV 0, t.readV 15, t.readV 1)),
      after (withV [(0, 0x07), (1, 0x05)]) 0x8017 (fun t => (t.readV 0, t.readV 15))) =
      (some (0x02, 1, 0x07), some (0xFE, 0)) := by decide

/-- A19. -/
theorem test_shl :
    after (withV [(1, 0x80), (2, 0x33)]) 0x812E (fun t => (t.readV 1, t.readV 15, t.readV 2)) =
      some (0x00, 1, 0x33) := by decide

/-- A29. -/
theorem test_shl_vf : after (withV [(15, 0xC0)]) 0x8FFE (·.readV 15) = some 0x80 := by decide

/-! ### Display -/

/-- G1, two of the pixels. -/
theorem test_cls :
    after { withV [(15, 1)] with fb := FrameBuffer.setPixel FrameBuffer.blank 63 31 true } 0x00E0
      (fun t => (lit [(0, 0), (63, 31)] t, t.readV 15, t.pc)) = some ([], 1, 0x0202) := by
  decide +kernel

/-- G12: both axes wrap. -/
theorem test_drw_wraps :
    after { withMem (withV [(0, 62), (1, 31)]) 0x20C [0xF0, 0x81] with index := 0x20C } 0xD012
      (fun t => (lit [(61, 31), (62, 31), (63, 31), (0, 31), (1, 31), (2, 31), (62, 0), (63, 0),
        (4, 0), (5, 0), (6, 0)] t, t.readV 15)) =
      some ([(62, 31), (63, 31), (0, 31), (1, 31), (62, 0), (5, 0)], 0) := by
  decide +kernel

/-- G4: a pixel goes off, a collision. -/
theorem test_drw_collides :
    after { withMem State.reset 0x301 [0x60] with
        index := 0x301
        fb := FrameBuffer.setPixel (FrameBuffer.setPixel FrameBuffer.blank 0 0 true) 1 0 true }
      0xD011 (fun t => (lit [(0, 0), (1, 0), (2, 0), (3, 0)] t, t.readV 15)) =
      some ([(0, 0), (2, 0)], 1) := by
  decide +kernel

/-! ### Keys -/

/-- Y5: the index is masked to 4 bits. -/
theorem test_skp :
    (after ((withV [(1, 0x17)]).keyEvent 7 true) 0xE19E (·.pc),
      after (withV [(1, 7)]) 0xE19E (·.pc)) = (some 0x0204, some 0x0202) := by decide

/-- Y3, Y4. -/
theorem test_sknp :
    (after (withV [(1, 7)]) 0xE1A1 (·.pc),
      after ((withV [(1, 7)]).keyEvent 7 true) 0xE1A1 (·.pc)) = (some 0x0204, some 0x0202) := by decide

/-- Y7, with a key already held (Y10). -/
theorem test_ldVxK :
    after (State.reset.keyEvent 5 true) 0xF10A
      (fun t => (t.wait, t.klatch, t.pc, t.readV 1)) = some (some 1, none, 0x0200, 0) := by decide

/-- Y9: the step after the key press completes the wait. -/
theorem test_ldVxK_completes :
    (match interpret ((State.reset.setWait (some 1) none).keyEvent 7 true) with
      | .next t => some (t.readV 1, t.pc, t.wait, t.klatch)
      | _ => none) = some (0x07, 0x0202, none, none) := by decide

/-- Y12, Y13: the first press wins and a release never latches. -/
theorem test_keyEvent_latch :
    (((((State.reset.setWait (some 1) none).keyEvent 7 false).keyEvent 7 true).keyEvent 2 true).keyEvent
      7 false).klatch = some 7 := by decide

/-! ### Timers -/

/-- T3. -/
theorem test_ldVxDT :
    after { State.reset with dt := 1 } 0xF207 (fun t => (t.readV 2, t.dt)) = some (0x01, 0x01) := by
  decide

/-- T1. -/
theorem test_ldDTVx :
    after (withV [(0, 0x03)]) 0xF015 (fun t => (t.dt, t.st, t.pc)) = some (0x03, 0, 0x0202) := by decide

/-- T2. -/
theorem test_ldSTVx :
    after (withV [(4, 0x1E)]) 0xF418 (fun t => (t.dt, t.st)) = some (0, 0x1E) := by decide

/-- T4. -/
theorem test_tick :
    ((State.reset.setDT 3).tick.dt, (State.reset.setDT 3).tick.st) = (2, 0) := by decide

/-- A requested tick is one step of the machine, and the interpreter does not move. -/
theorem test_requested_tick :
    (match step ((State.reset.setDT 3).setRequests [.tick, .step]) with
      | .next t => some (t.dt, t.pc, t.requests)
      | _ => none) = some (2, 0x0200, [.step]) := by decide

/-! ### Index and memory -/

/-- M2, M3. -/
theorem test_addI :
    (after { withV [(3, 0x01)] with index := 0xFFF } 0xF31E (·.index),
      after { withV [(3, 0xFF)] with index := 0xF80 } 0xF31E (·.index)) =
      (some 0x0000, some 0x007F) := by decide

/-- M6: the operand is not masked to a nibble. -/
theorem test_ldF :
    after (withV [(2, 0x1A)]) 0xF229 (·.index) =
      some (BitVec.ofNat 16 (Config.fontBase.val + 130)) := rfl

/-- M8. -/
theorem test_ldB :
    after { withV [(0, 0xFE)] with index := 0x300 } 0xF033
      (fun t => (t.readMem 0x300, t.readMem 0x301, t.readMem 0x302, t.index)) =
      some (0x02, 0x05, 0x04, 0x300) := by decide

/-- M14. -/
theorem test_storeRegs :
    after { withV [(0, 0x11), (1, 0x22), (2, 0x33), (3, 0x44)] with index := 0x400 } 0xF255
      (fun t => (t.readMem 0x400, t.readMem 0x402, t.readMem 0x403, t.index)) =
      some (0x11, 0x33, 0x00, 0x400) := by decide

/-- M17. -/
theorem test_loadRegs :
    after { withMem (withV [(3, 0xEE)]) 0x300 [0x02, 0x05, 0x04, 0x77] with index := 0x300 } 0xF265
      (fun t => (t.readV 0, t.readV 1, t.readV 2, t.readV 3, t.index)) =
      some (0x02, 0x05, 0x04, 0xEE, 0x300) := by decide

/-- U3, 20_memory.md R66: the data address wraps at the top of memory. -/
theorem test_ea_wraps : (ea 0xFFE 1, ea 0xFFE 2) = (0xFFF, 0x000) := by decide

/-- Writing back the reset value takes the cell off the list. -/
theorem test_memory_canonical :
    ((Memory.write [] 0x300 5).write 0x2FF 7, ((Memory.write [] 0x300 5).write 0x300 0)) =
      ([(0x2FF, 7), (0x300, 5)], []) := by decide

/-! ### Faults, invalid opcodes, halt, load -/

/-- X4: an invalid opcode at the top reports both. -/
theorem test_invalid_at_top :
    (after { State.reset with pc := 0x0FFE } 0xFFFF (·.pc),
      reports { State.reset with pc := 0x0FFE } 0xFFFF) =
      (some 0x1000, .ok true false (some (0xFFFF, 0x0FFE))) := by decide

/-- X6: halted at `0x0FFF`. -/
theorem test_halted :
    report { State.reset with pc := 0x0FFF } = .ok true false none := by decide

/-- X8: an odd `PC` fetches the straddling word. -/
theorem test_odd_fetch :
    ({ withMem State.reset 0x200 [0x60, 0x61, 0x22] with pc := 0x201 } : State).fetchWord = 0x6122 := by
  decide

/-- X9. -/
theorem test_cause_codes :
    [none, some .stackOverflow, some .stackUnderflow].map causeCode = [0, 1, 2] := by decide

/-- S7: a loaded program, its first byte at `0x200`. -/
theorem test_load :
    (match step (State.reset.afterLoad [0xA2, 0xF0]) with
      | .next t => some (t.index, t.pc)
      | _ => none) = some (0x02F0, 0x0202) := by decide

/-- L4: reset from a state that has run. -/
theorem test_restart :
    ((withV [(3, 9)]).setDT 4).restart = State.reset := by decide +kernel

/-! ### Witnesses: concrete states and operands that meet the hypotheses of the statements -/

/-- `EncodeOfDecode`, `DecoderAgreesWithTheMap` (first clause). -/
theorem witness_decodes : decodeWord 0x8AB4 = .ok (.addReg 10 11) := by decide

/-- `RowsAreDisjoint` and `DecoderAgreesWithTheMap` (second clause). -/
theorem witness_row_matches :
    rowOf (.addReg 0 0) ∈ opcodeRows ∧ rowMatches 0x8AB4 (rowOf (.addReg 0 0)) = true := by decide

/-- `DecoderAgreesWithTheMap` (third clause). -/
theorem witness_no_row : ∀ r ∈ opcodeRows, rowMatches 0x5121 r = false := by decide

/-- A jump placed at the last fetchable address. -/
def atTop : State := { State.reset with pc := 0x0FFE }.withFetchWord 16 0x1204

/-- `StepRunsTheDecodedInstruction`, at the boundary of its range. -/
theorem witness_step_runs :
    atTop.requests = [] ∧ atTop.wait = none ∧ atTop.pc.toNat ≤ 0xFFE ∧
      decode [atTop.readMem atTop.pc.toNat, atTop.readMem (atTop.pc.toNat + 1)] =
        .ok (.jp 0x204, []) := by decide

/-- `InvalidOpcodeAdvances`. -/
theorem witness_invalid :
    State.reset.requests = [] ∧ State.reset.wait = none ∧ State.reset.pc.toNat ≤ 0xFFE ∧
      decodeWord State.reset.fetchWord = .error (.invalidOpcode 0x0000) := by decide

/-- `HaltedStepChangesNothing`, at the boundary of its range. -/
theorem witness_halted :
    ({ State.reset with pc := 0x0FFF } : State).requests = [] ∧
      ({ State.reset with pc := 0x0FFF } : State).wait = none ∧
      0xFFE < ({ State.reset with pc := 0x0FFF } : State).pc.toNat := by decide

/-- `OutcomeShape`: an outcome that awaits, and one that is halted. -/
theorem witness_outcomes :
    report (State.reset.setWait (some 1) none) = .ok false true none ∧
      report { State.reset with pc := 0x0FFF } = .ok true false none := by decide

/-- `RequestsArePerformedInOrder`, one witness for each clause. -/
theorem witness_requests :
    (State.reset.setRequests [.step, .tick]).requests = .step :: [.tick] ∧
      (State.reset.setRequests [.tick]).requests = .tick :: [] ∧
      (State.reset.setRequests [.keyEvent 15 true]).requests = .keyEvent 15 true :: [] ∧
      (State.reset.setRequests [.load [0x12, 0x00]]).requests = .load [0x12, 0x00] :: [] ∧
      (State.reset.setRequests [.reset, .step]).requests = .reset :: [.step] := by decide

/-- `CallPushesReturnAddress`: 15 and 16 addresses held. -/
theorem witness_call :
    ({ State.reset with sp := 15 } : State).sp.val < 16 ∧
      ({ State.reset with sp := 16 } : State).sp.val = 16 := by decide

/-- `ReturnPopsIntoPc`: 1 and 16 addresses held, and none. -/
theorem witness_ret :
    ({ State.reset with sp := 1 } : State).sp.val = (0 : Fin 16).val + 1 ∧
      ({ State.reset with sp := 16 } : State).sp.val = (15 : Fin 16).val + 1 ∧
      State.reset.sp.val = 0 := by decide

/-- `CallThenReturn`. -/
theorem witness_call_then_return :
    ∃ t, exec (.call 0x300) State.reset = .next t ∧ t.sp = t.sp ∧ t.stack = t.stack :=
  ⟨_, rfl, rfl, rfl⟩

/-- `RegisterSkips` (last clause), for both families. -/
theorem witness_bad_low_digit :
    ((0x5121 : Word).toNat / 4096 = 5 ∧ (0x5121 : Word).toNat % 16 ≠ 0) ∧
      ((0x9AB1 : Word).toNat / 4096 = 9 ∧ (0x9AB1 : Word).toNat % 16 ≠ 0) := by decide

/-- `RandomIsMasked` (bits where the mask is 0), `BitwiseBitByBit` has none. -/
theorem witness_mask_bit : (0x0F : Byte).getLsbD 7 = false := by decide

/-- `AddSetsCarry`, `SubtractSetsNotBorrow`, `ShiftsMoveTheBitOut`: a destination that is not `VF`. -/
theorem witness_not_vf : (14 : RegIndex) ≠ 15 := by decide

/-- `DrawXorsTheSprite`: a pixel at the far corner. -/
theorem witness_corner : 63 < 64 ∧ 31 < 32 := by decide

/-- `DrawTwiceRestores`: two draws in a row, of a sprite of one row. -/
theorem witness_draw_twice :
    (0 : RegIndex) ≠ 15 ∧ (1 : RegIndex) ≠ 15 ∧
      ∃ t u, exec (.drw 0 1 1) (withMem State.reset 0 []) = .next t ∧ exec (.drw 0 1 1) t = .next u :=
  ⟨by decide, by decide, _, _, rfl, rfl⟩

/-- `KeySkips`: a register value above 15. -/
theorem witness_key :
    (7 : KeyIndex).toNat = ((withV [(1, 0x17)]).readV 1).toNat % 16 := by decide

/-- `KeyWaitCompletes`, both clauses. -/
theorem witness_waiting :
    (State.reset.setWait (some 15) none).requests = [] ∧
      (State.reset.setWait (some 15) none).wait = some 15 ∧
      (State.reset.setWait (some 15) none).klatch = none ∧
      (State.reset.setWait (some 15) (some 7)).requests = [] ∧
      (State.reset.setWait (some 15) (some 7)).wait = some 15 ∧
      (State.reset.setWait (some 15) (some 7)).klatch = some 7 := by decide

/-- `KeyEventLatchesFirstPress`, the second and the third clause. -/
theorem witness_latch :
    (true = true ∧ (State.reset.setWait (some 0) none).wait ≠ none ∧
      (State.reset.setWait (some 0) none).klatch = none) ∧
      ¬ (true = true ∧ State.reset.wait ≠ none ∧ State.reset.klatch = none) := by decide

/-- `BlockStore`, `BlockLoad`: the last register of the largest block. -/
theorem witness_block : (15 : RegIndex).toNat ≤ (15 : RegIndex).toNat := by decide

/-- `StoreThenLoadRestores`. -/
theorem witness_store_then_load :
    ∃ t, exec (.storeRegs 15) State.reset = .next t ∧ t.index = t.index ∧ t.mem = t.mem :=
  ⟨_, rfl, rfl, rfl⟩

/-- `FaultRepeatsAfterInputs`: a return with nothing held, after a tick and a key press. -/
def faulting : State :=
  (State.reset.withFetchWord 16 0x00EE).setRequests [.tick, .keyEvent 3 true]

theorem witness_faulting :
    (∀ e ∈ faulting.requests, e = .tick ∨ ∃ k p, e = .keyEvent k p) ∧
      interpret faulting = .fault .stackUnderflow := by
  refine ⟨fun e he => ?_, rfl⟩
  have h : e ∈ [Transition.tick, Transition.keyEvent 3 true] := he
  simp only [List.mem_cons, List.not_mem_nil, or_false] at h
  exact h.imp id fun h => ⟨3, true, h⟩

/-- `FaultsAreTheStackFaults`: its two faults happen. -/
theorem witness_faults :
    exec (.call 0) { State.reset with sp := 16 } = .fault .stackOverflow ∧
      exec .ret State.reset = .fault .stackUnderflow := ⟨rfl, rfl⟩

/-- `LoadCopiesTheProgram`: the largest program, and one byte more. -/
theorem witness_load :
    (List.replicate 3583 (0 : Byte)).length ≤ 3583 ∧
      3583 < (List.replicate 3584 (0 : Byte)).length := by
  rw [List.length_replicate, List.length_replicate]
  decide

/-- `ResetValues`: an address below and one above the font exist for some value of the parameter; an
address above it exists for every value. -/
theorem witness_above_font : Config.fontBase.val + 80 ≤ 0x200 := by
  have := Config.fontBase.isLt
  omega

/-- `OnlyTheNamedWriters`: for each clause, a next state in which the part it is about has changed. -/
theorem witness_named_writers :
    (∃ t, exec (.ldI 0xFFF) State.reset = .next t ∧ t.index ≠ State.reset.index) ∧
    (∃ t, exec (.call 0) State.reset = .next t ∧ t.sp ≠ State.reset.sp) ∧
    (∃ t, exec (.ldDTVx 1) (withV [(1, 5)]) = .next t ∧ t.dt ≠ (withV [(1, 5)]).dt) ∧
    (∃ t, exec (.ldSTVx 1) (withV [(1, 5)]) = .next t ∧ t.st ≠ (withV [(1, 5)]).st) ∧
    (∃ t, exec (.storeRegs 1) ((withV [(1, 5)]).setIndex 0x300) = .next t ∧
      t.mem ≠ ((withV [(1, 5)]).setIndex 0x300).mem) ∧
    (∃ t, exec .cls (State.reset.setFB (FrameBuffer.blank.setPixel 63 31 true)) = .next t ∧
      t.fb ≠ FrameBuffer.blank.setPixel 63 31 true) ∧
    (∃ t, exec (.ldVxK 15) State.reset = .next t ∧ t.wait ≠ State.reset.wait) ∧
    (∃ t, exec (.rnd 0 0) State.reset = .next t ∧ t.draws ≠ State.reset.draws) :=
  ⟨⟨_, rfl, by decide⟩, ⟨_, rfl, by decide⟩, ⟨_, rfl, by decide⟩, ⟨_, rfl, by decide⟩,
    ⟨_, rfl, by decide⟩, ⟨_, rfl, by decide⟩, ⟨_, rfl, by decide⟩, ⟨_, rfl, by decide⟩⟩

/-- `RegisterWriters`: a next state in which a register has changed. -/
theorem witness_writer :
    ∃ t, exec (.ldImm 3 0x11) State.reset = .next t ∧ t.readV 3 ≠ State.reset.readV 3 :=
  ⟨_, rfl, by decide⟩

/-- `DefaultAdvanceOrSkip`: an instruction that does not set `PC`, at an even `PC`. -/
theorem witness_advance :
    setsPc (.seImm 0 0) = false ∧ (∃ t, exec (.seImm 0 0) State.reset = .next t) ∧
      State.reset.pc.toNat % 2 = 0 := ⟨rfl, ⟨_, rfl⟩, by decide⟩

/-- `OnlyRandomReadsTheDraw`, `OnlyKeySkipsReadTheKeys`. -/
theorem witness_not_reader :
    (∀ x nn, Instr.cls ≠ .rnd x nn) ∧ ∀ x, Instr.cls ≠ .skp x ∧ Instr.cls ≠ .sknp x := by simp

/-- `StepKeepsTheInvariant`: a state that is not the reset state, with a return address held, memory
listed and a key awaited, and its step. -/
def running : State :=
  { withMem (withV [(1, 5)]) 0x300 [1, 2] with
    sp := 1, stack := State.reset.stack.set 0 0x0204, pc := 0x0FFE, index := 0xFFF, wait := some 1 }

theorem witness_invariant : Inv running ∧ step running = .next running := by
  refine ⟨⟨by decide, by decide, by decide, ?_, by decide, by decide⟩, rfl⟩
  decide

end Sys2Proof.Tests
end

section
/-! Control transfer (40_control.md): the frame of a write to `PC`, what a skip does, and the
statements about the jump and the two skips on an immediate. -/

namespace Sys2Proof

open Sys2Proof.Machine

/-! ### The frame of a write to `PC` -/

theorem Keeps.refl (f : Frame) (s : State) : Keeps f s s := by
  constructor <;> intros <;> rfl

/-- A frame never speaks of `PC`, so a write to it stays inside every frame. -/
theorem Keeps.setPc {f : Frame} {s t : State} (h : Keeps f s t) (w : Word) :
    Keeps f s (t.setPc w) := { h with }

theorem Keeps.skipIf {f : Frame} {s t : State} (h : Keeps f s t) (c : Bool) :
    Keeps f s (t.skipIf c) := by
  cases c with
  | false => exact h.setPc (t.pc + 2)
  | true => exact h.setPc (t.pc + 4)

/-! ### The three meanings -/

theorem exec_jp (nnn : Addr) (s : State) :
    exec (.jp nnn) s = .next (s.setPc (addrOperand nnn)) := rfl

theorem exec_seImm (x : RegIndex) (nn : Byte) (s : State) :
    exec (.seImm x nn) s = .next (s.skipIf (s.readV x == nn)) := rfl

theorem exec_sneImm (x : RegIndex) (nn : Byte) (s : State) :
    exec (.sneImm x nn) s = .next (s.skipIf (s.readV x != nn)) := rfl

@[simp] theorem toNat_addrOperand (nnn : Addr) : (addrOperand nnn).toNat = nnn.toNat :=
  BitVec.toNat_setWidth_of_le (by decide)

/-- The machine is halted after a write to `PC` exactly when the value is above `0xFFE`
(10_state.md R26). -/
theorem halted_setPc_iff (s : State) (w : Word) : (s.setPc w).halted = true ↔ 0xFFE < w.toNat :=
  decide_eq_true_iff

/-- A skip on a condition that holds exactly when `p` does: it completes, and all it changes is
`PC` (10_state.md R24, clause (c)). -/
theorem exec_skip {i : Instr} {s : State} {c : Bool} {p : Prop} [Decidable p]
    (hexec : exec i s = .next (s.skipIf c)) (hc : c = true ↔ p) :
    ∃ t, exec i s = .next t ∧ t.pc = (if p then s.pc + 4 else s.pc + 2) ∧ Keeps {} s t := by
  refine ⟨s.skipIf c, hexec, ?_, (Keeps.refl {} s).skipIf c⟩
  simp only [State.pc_skipIf, hc]

/-! ### The statements -/

/-- Settles O17: each of the two is `exec_skip` on its own comparison. -/
theorem immediateSkips : Obligations.ImmediateSkips := by
  intro x nn s
  refine ⟨toNat_wordXI 0x3#4 x nn, toNat_wordXI 0x4#4 x nn, ?_, ?_⟩
  · exact exec_skip (exec_seImm x nn s) beq_iff_eq
  · exact exec_skip (exec_sneImm x nn s) bne_iff_ne

/-- Settles O12: the target is `nnn` itself, and `0xFFF` is the only 12-bit value above `0xFFE`. -/
theorem jumpSetsPc : Obligations.JumpSetsPc := by
  intro nnn s
  refine ⟨toNat_wordA 0x1#4 nnn, _, exec_jp nnn s, toNat_addrOperand nnn, ?_,
    (Keeps.refl {} s).setPc _⟩
  have hlt : nnn.toNat < 2 ^ 12 := nnn.isLt
  rw [halted_setPc_iff, toNat_addrOperand]
  omega

end Sys2Proof
end

section
/-! Immediate load, immediate add, index load (41_load_imm.md): the frames of a write to a register
and to `I`, what an instruction that writes one register does, and the statements. -/

namespace Sys2Proof

open Sys2Proof.Machine

/-! ### The frames of a write to a register, to `I`, and of the default advance -/

theorem Keeps.writeV {f : Frame} {s t : State} (h : Keeps f s t) {x : RegIndex}
    (hx : x ∈ f.regs) (b : Byte) : Keeps f s (t.writeV x b) where
  __ := h
  regs r hr := by
    have hrx : r ≠ x := fun e => hr (e ▸ hx)
    rw [State.readV_writeV, if_neg hrx, h.regs r hr]

theorem Keeps.setIndex {f : Frame} {s t : State} (h : Keeps f s t) (hf : f.index = true)
    (w : Word) : Keeps f s (t.setIndex w) where
  __ := h
  index hkept := absurd (hf.symm.trans hkept) (by decide)

theorem Keeps.advance {f : Frame} {s t : State} (h : Keeps f s t) : Keeps f s t.advance :=
  h.setPc _

/-! ### The three meanings -/

theorem exec_ldImm (x : RegIndex) (nn : Byte) (s : State) :
    exec (.ldImm x nn) s = .next (s.writeV x nn).advance := rfl

theorem exec_addImm (x : RegIndex) (nn : Byte) (s : State) :
    exec (.addImm x nn) s = .next (s.writeV x (s.readV x + nn)).advance := rfl

theorem exec_ldI (nnn : Addr) (s : State) :
    exec (.ldI nnn) s = .next (s.setIndex (addrOperand nnn)).advance := rfl

/-- An instruction that writes `b` to `V[x]` and advances: it completes, and all it changes besides
`PC` is `V[x]`, for every `x` including 15 (10_state.md R20, R24). -/
theorem exec_writeV_advance {i : Instr} {s : State} {x : RegIndex} {b : Byte}
    (hexec : exec i s = .next (s.writeV x b).advance) :
    ∃ t, exec i s = .next t ∧ t.readV x = b ∧ t.pc = s.pc + 2 ∧ Keeps { regs := [x] } s t := by
  refine ⟨_, hexec, ?_, rfl, ((Keeps.refl _ s).writeV List.mem_cons_self b).advance⟩
  rw [State.readV_advance, State.readV_writeV, if_pos rfl]

/-! ### The statements -/

/-- Settles O20: the byte written is the 8-bit sum, whose value is the sum modulo 256. -/
theorem addImmediateWraps : Obligations.AddImmediateWraps := by
  intro x nn s
  obtain ⟨t, hexec, hread, hpc, hkeeps⟩ := exec_writeV_advance (exec_addImm x nn s)
  refine ⟨toNat_wordXI 0x7#4 x nn, t, hexec, ?_, hpc, hkeeps⟩
  rw [hread, BitVec.toNat_add]

/-- Settles O19: `exec_writeV_advance` on the immediate. -/
theorem loadImmediate : Obligations.LoadImmediate := fun x nn s =>
  ⟨toNat_wordXI 0x6#4 x nn, exec_writeV_advance (exec_ldImm x nn s)⟩

/-- Settles O21: the 12-bit operand keeps its value when it is extended to the width of `I`. -/
theorem loadIndex : Obligations.LoadIndex := fun nnn s =>
  ⟨toNat_wordA 0xA#4 nnn, _, exec_ldI nnn s, toNat_addrOperand nnn, rfl,
    ((Keeps.refl _ s).setIndex rfl _).advance⟩

end Sys2Proof
end

section
/-! Register-to-register ALU (42_alu.md): the register move and its statement. -/

namespace Sys2Proof

open Sys2Proof.Machine

/-! ### The meaning -/

theorem exec_ldReg (x y : RegIndex) (s : State) :
    exec (.ldReg x y) s = .next (s.writeV x (s.readV y)).advance := rfl

/-- The value of an encoding of format XY with low digit 0 (30_encoding.md). -/
theorem toNat_wordXYN_zero (op x y : BitVec 4) :
    (wordXYN op x y 0#4).toNat = op.toNat * 4096 + x.toNat * 256 + y.toNat * 16 := by
  rw [toNat_wordXYN, BitVec.toNat_zero, Nat.add_zero]

/-! ### The statement -/

/-- Settles O23: `exec_writeV_advance` on the byte of `V[y]`. -/
theorem registerMove : Obligations.RegisterMove := fun x y s =>
  ⟨toNat_wordXYN_zero 0x8#4 x y, exec_writeV_advance (exec_ldReg x y s)⟩

end Sys2Proof
end

section
/-! The display (43_display.md): the frame of a write to the framebuffer and the statement about the
clear. -/

namespace Sys2Proof

open Sys2Proof.Machine

/-! ### The frame of a write to the framebuffer -/

theorem Keeps.setFB {f : Frame} {s t : State} (h : Keeps f s t) (hf : f.screen = true)
    (fb : FrameBuffer) : Keeps f s (t.setFB fb) where
  __ := h
  screen hkept := absurd (hf.symm.trans hkept) (by decide)

/-! ### The meaning -/

theorem exec_cls (s : State) : exec .cls s = .next (s.setFB FrameBuffer.blank).advance := rfl

/-! ### The statement -/

/-- Settles O28: the framebuffer written is the blank one, and no other field but `PC` is written. -/
theorem clearScreen : Obligations.ClearScreen :=
  ⟨rfl, fun s => ⟨_, exec_cls s, FrameBuffer.pixel_blank, rfl,
    ((Keeps.refl _ s).setFB rfl _).advance⟩⟩

end Sys2Proof
end

section
/-! The timer transition (60_exceptions.md): the value of a timer after one decrement and the
statement about `tick`. -/

namespace Sys2Proof

open Sys2Proof.Machine

/-! ### One timer -/

/-- Subtraction of natural numbers stops at 0, as the timer does (60_exceptions.md R235). -/
theorem toNat_countDown (t : Byte) : (countDown t).toNat = t.toNat - 1 := by
  unfold countDown
  split
  case isTrue hzero => rw [hzero]; rfl
  case isFalse hnonzero =>
    have hone : 1 ≤ t := Nat.pos_of_ne_zero (BitVec.toNat_ne_iff_ne.mpr hnonzero)
    exact BitVec.toNat_sub_of_le hone

/-! ### The statement -/

/-- Settles O36: `toNat_countDown` on each of the two timers; `tick` writes no other field. -/
theorem tickDecrements : Obligations.TickDecrements := fun s =>
  ⟨toNat_countDown s.dt, toNat_countDown s.st, rfl⟩

end Sys2Proof
end

section
/-! Encoding and the opcode map (30_encoding.md): the decoder inverts the encoder, a word that
decodes is its instruction's word, and the decoder accepts exactly the words of the map's rows. -/

namespace Sys2Proof

open Sys2Proof.Machine

/-! ### Decoding what the encoder wrote -/

theorem decodeWord_encodeWord (i : Instr) : decodeWord (encodeWord i) = .ok i := by
  cases i with
  | cls | ret => rfl
  | jp | call | ldI | jpV0 => simp [encodeWord, decodeWord]
  | seImm | sneImm | ldImm | addImm | rnd => simp [encodeWord, decodeWord]
  | seReg | sneReg => simp [encodeWord, decodeWord, decodeIfNZero]
  | ldReg | orReg | andReg | xorReg | addReg | subReg | shr | subnReg | shl =>
    simp [encodeWord, decodeWord, decodeFamily8]
  | drw => simp [encodeWord, decodeWord]
  | skp | sknp => simp [encodeWord, decodeWord, decodeFamilyE]
  | ldVxDT | ldVxK | ldDTVx | ldSTVx | addI | ldF | ldB | storeRegs | loadRegs =>
    simp [encodeWord, decodeWord, decodeFamilyF]

/-! ### Encoding what the decoder read, family by family -/

theorem encodeWord_of_decodeFamily0 {w : Word} {i : Instr} (h : decodeFamily0 w = .ok i) :
    encodeWord i = w := by
  unfold decodeFamily0 at h
  split at h
  case isTrue hw => cases h; exact hw.symm
  case isFalse =>
    split at h
    case isTrue hw => cases h; exact hw.symm
    case isFalse => cases h

/-- What a family with the strict low digit 0 reads (30_encoding.md R100, decision D22). -/
theorem decodeIfNZero_eq_ok {w : Word} {i j : Instr} (h : decodeIfNZero w i = .ok j) :
    fieldN w = 0#4 ∧ i = j := by
  unfold decodeIfNZero at h
  split at h
  case isTrue hn => exact ⟨hn, by cases h; rfl⟩
  case isFalse => cases h

theorem encodeWord_of_decodeFamily8 {w : Word} {i : Instr} (hop : fieldOp w = 0x8#4)
    (h : decodeFamily8 w = .ok i) : encodeWord i = w := by
  unfold decodeFamily8 at h
  split at h <;> cases h <;>
    exact wordXYN_of_fields hop (BitVec.eq_of_toNat_eq ‹_›)

theorem encodeWord_of_decodeFamilyE {w : Word} {i : Instr} (hop : fieldOp w = 0xE#4)
    (h : decodeFamilyE w = .ok i) : encodeWord i = w := by
  unfold decodeFamilyE at h
  split at h <;> cases h <;>
    exact wordXI_of_fields hop (BitVec.eq_of_toNat_eq ‹_›)

theorem encodeWord_of_decodeFamilyF {w : Word} {i : Instr} (hop : fieldOp w = 0xF#4)
    (h : decodeFamilyF w = .ok i) : encodeWord i = w := by
  unfold decodeFamilyF at h
  split at h <;> cases h <;>
    exact wordXI_of_fields hop (BitVec.eq_of_toNat_eq ‹_›)

/-- The cases are the arms of `decodeWord` in their order: `h_1` is family `0`, `h_16` family `F`. -/
theorem encodeWord_of_decodeWord {w : Word} {i : Instr} (h : decodeWord w = .ok i) :
    encodeWord i = w := by
  have hfam {k : Nat} (hk : (fieldOp w).toNat = k) : fieldOp w = BitVec.ofNat 4 k := by
    rw [← hk, BitVec.ofNat_toNat, BitVec.setWidth_eq]
  unfold decodeWord at h
  split at h
  case h_1 => exact encodeWord_of_decodeFamily0 h
  case h_6 hop =>
    obtain ⟨hn, rfl⟩ := decodeIfNZero_eq_ok h
    exact wordXYN_of_fields (hfam hop) hn
  case h_10 hop =>
    obtain ⟨hn, rfl⟩ := decodeIfNZero_eq_ok h
    exact wordXYN_of_fields (hfam hop) hn
  case h_9 hop => exact encodeWord_of_decodeFamily8 (hfam hop) h
  case h_15 hop => exact encodeWord_of_decodeFamilyE (hfam hop) h
  case h_16 =>
    refine encodeWord_of_decodeFamilyF (hfam ?_) h
    have hlt : (fieldOp w).toNat < 2 ^ 4 := (fieldOp w).isLt
    simp only [imp_false] at *
    omega
  case h_2 hop | h_3 hop | h_11 hop | h_12 hop => cases h; exact wordA_of_fields (hfam hop)
  case h_4 hop | h_5 hop | h_7 hop | h_8 hop | h_13 hop =>
    cases h; exact wordXI_of_fields (hfam hop) rfl
  case h_14 hop => cases h; exact wordXYN_of_fields (hfam hop) rfl

/-- Settles O1: the two bytes of `encode i` join to `encodeWord i`, which decodes to `i`. -/
theorem decodeOfEncode : Obligations.DecodeOfEncode := fun i rest =>
  decode_wordBytes rest (decodeWord_encodeWord i)

/-- Settles O2: each arm of the decoder fixes the digits that its instruction's pattern fixes, and
puts the others into the operands. -/
theorem encodeOfDecode : Obligations.EncodeOfDecode := fun _ _ => encodeWord_of_decodeWord

/-! ### The rows of the map (30_encoding.md R94) -/

theorem rowMatches_iff {w : Word} {r : OpcodeRow} :
    rowMatches w r = true ↔ w &&& r.mask = r.value := decide_eq_true_iff

/-- The word of an instruction belongs to the instruction's row. -/
theorem rowMatches_rowOf (i : Instr) : rowMatches (encodeWord i) (rowOf i) = true := by
  refine rowMatches_iff.mpr ?_
  cases i with
  | cls | ret => rfl
  | jp | call | ldI | jpV0 => exact Laws.and_mask_wordA _ _
  | seImm | sneImm | ldImm | addImm | rnd => exact Laws.and_mask_wordXI _ _ _
  | drw => exact Laws.and_mask_wordXYN _ _ _ _
  | seReg | sneReg | ldReg | orReg | andReg | xorReg | addReg | subReg | shr | subnReg | shl =>
    exact Laws.and_mask_wordXY _ _ _ _
  | skp | sknp | ldVxDT | ldVxK | ldDTVx | ldSTVx | addI | ldF | ldB | storeRegs | loadRegs =>
    exact Laws.and_mask_wordXF _ _ _

/-- The row of an instruction does not depend on its operands. -/
theorem rowOf_mem_opcodeRows (i : Instr) : rowOf i ∈ opcodeRows := by
  cases i <;> simp [opcodeRows, rowOf]

/-- Two rows that disagree on a bit both of them fix share no word; any two rows of the map do. -/
theorem opcodeRows_eq_of_compatible : ∀ r ∈ opcodeRows, ∀ q ∈ opcodeRows,
    r.value &&& q.mask = q.value &&& r.mask → r = q := by
  decide

theorem eq_of_rowMatches {w : Word} {r q : OpcodeRow} (hr : r ∈ opcodeRows) (hq : q ∈ opcodeRows)
    (hwr : rowMatches w r = true) (hwq : rowMatches w q = true) : r = q := by
  refine opcodeRows_eq_of_compatible r hr q hq ?_
  rw [← rowMatches_iff.mp hwr, ← rowMatches_iff.mp hwq, BitVec.and_assoc, BitVec.and_assoc,
    BitVec.and_comm r.mask]

/-! ### A field that a mask keeps -/

theorem fieldOp_and_mask {w m v : Word} (hm : fieldOp m = 0xF#4) (h : w &&& m = v) :
    fieldOp w = fieldOp v := by
  have hand : fieldOp (w &&& m) = fieldOp w &&& fieldOp m := BitVec.extractLsb'_and
  rw [← h, hand, hm]
  exact BitVec.and_allOnes.symm

theorem fieldN_and_mask {w m v : Word} (hm : fieldN m = 0xF#4) (h : w &&& m = v) :
    fieldN w = fieldN v := by
  have hand : fieldN (w &&& m) = fieldN w &&& fieldN m := BitVec.extractLsb'_and
  rw [← h, hand, hm]
  exact BitVec.and_allOnes.symm

theorem fieldNN_and_mask {w m v : Word} (hm : fieldNN m = 0xFF#8) (h : w &&& m = v) :
    fieldNN w = fieldNN v := by
  have hand : fieldNN (w &&& m) = fieldNN w &&& fieldNN m := BitVec.extractLsb'_and
  rw [← h, hand, hm]
  exact BitVec.and_allOnes.symm

/-- The instruction of the same row as `i` whose operands are the fields of `w`. -/
def Instr.withFieldsOf (w : Word) : Instr → Instr
  | .cls => .cls
  | .ret => .ret
  | .jp _ => .jp (fieldNNN w)
  | .call _ => .call (fieldNNN w)
  | .seImm _ _ => .seImm (fieldX w) (fieldNN w)
  | .sneImm _ _ => .sneImm (fieldX w) (fieldNN w)
  | .seReg _ _ => .seReg (fieldX w) (fieldY w)
  | .ldImm _ _ => .ldImm (fieldX w) (fieldNN w)
  | .addImm _ _ => .addImm (fieldX w) (fieldNN w)
  | .ldReg _ _ => .ldReg (fieldX w) (fieldY w)
  | .orReg _ _ => .orReg (fieldX w) (fieldY w)
  | .andReg _ _ => .andReg (fieldX w) (fieldY w)
  | .xorReg _ _ => .xorReg (fieldX w) (fieldY w)
  | .addReg _ _ => .addReg (fieldX w) (fieldY w)
  | .subReg _ _ => .subReg (fieldX w) (fieldY w)
  | .shr _ _ => .shr (fieldX w) (fieldY w)
  | .subnReg _ _ => .subnReg (fieldX w) (fieldY w)
  | .shl _ _ => .shl (fieldX w) (fieldY w)
  | .sneReg _ _ => .sneReg (fieldX w) (fieldY w)
  | .ldI _ => .ldI (fieldNNN w)
  | .jpV0 _ => .jpV0 (fieldNNN w)
  | .rnd _ _ => .rnd (fieldX w) (fieldNN w)
  | .drw _ _ _ => .drw (fieldX w) (fieldY w) (fieldN w)
  | .skp _ => .skp (fieldX w)
  | .sknp _ => .sknp (fieldX w)
  | .ldVxDT _ => .ldVxDT (fieldX w)
  | .ldVxK _ => .ldVxK (fieldX w)
  | .ldDTVx _ => .ldDTVx (fieldX w)
  | .ldSTVx _ => .ldSTVx (fieldX w)
  | .addI _ => .addI (fieldX w)
  | .ldF _ => .ldF (fieldX w)
  | .ldB _ => .ldB (fieldX w)
  | .storeRegs _ => .storeRegs (fieldX w)
  | .loadRegs _ => .loadRegs (fieldX w)

theorem rowOf_withFieldsOf (w : Word) (i : Instr) : rowOf (i.withFieldsOf w) = rowOf i := by
  cases i <;> rfl

/-- A word of the row of `i` is the word of that row's instruction with the word's own fields. -/
theorem encodeWord_withFieldsOf {w : Word} {i : Instr} (h : rowMatches w (rowOf i) = true) :
    encodeWord (i.withFieldsOf w) = w := by
  rw [rowMatches_iff] at h
  cases i <;> dsimp only [rowOf] at h
  case cls | ret => exact h.symm.trans BitVec.and_allOnes
  case jp | call | ldI | jpV0 => exact wordA_of_fields (fieldOp_and_mask rfl h)
  case seImm | sneImm | ldImm | addImm | rnd => exact wordXI_of_fields (fieldOp_and_mask rfl h) rfl
  case drw => exact wordXYN_of_fields (fieldOp_and_mask rfl h) rfl
  case seReg | sneReg | ldReg | orReg | andReg | xorReg | addReg | subReg | shr | subnReg | shl =>
    exact wordXYN_of_fields (fieldOp_and_mask rfl h) (fieldN_and_mask rfl h)
  case skp | sknp | ldVxDT | ldVxK | ldDTVx | ldSTVx | addI | ldF | ldB | storeRegs | loadRegs =>
    exact wordXI_of_fields (fieldOp_and_mask rfl h) (fieldNN_and_mask rfl h)

/-- Every row of the map is the row of an instruction. -/
theorem exists_rowOf_eq : ∀ r ∈ opcodeRows, ∃ i, rowOf i = r := by
  simp [opcodeRows]

/-- The only reason a 16-bit word is rejected (30_encoding.md R100). -/
theorem eq_invalidOpcode_of_decodeWord {w : Word} {e : DecodeError} (h : decodeWord w = .error e) :
    e = .invalidOpcode w := by
  unfold decodeWord decodeFamily0 decodeIfNZero decodeFamily8 decodeFamilyE decodeFamilyF at h
  repeat' split at h
  all_goals (cases h <;> rfl)

theorem exists_decodeWord_of_rowMatches {w : Word} {r : OpcodeRow} (hr : r ∈ opcodeRows)
    (h : rowMatches w r = true) : ∃ i, decodeWord w = .ok i ∧ rowOf i = r := by
  obtain ⟨i, rfl⟩ := exists_rowOf_eq r hr
  refine ⟨i.withFieldsOf w, ?_, rowOf_withFieldsOf w i⟩
  rw [← decodeWord_encodeWord (i.withFieldsOf w), encodeWord_withFieldsOf h]

theorem rowMatches_of_decodeWord {w : Word} {i : Instr} (h : decodeWord w = .ok i) :
    rowMatches w (rowOf i) = true := by
  rw [← encodeWord_of_decodeWord h]
  exact rowMatches_rowOf i

/-- Settles O3: two rows that share a word agree on the bits both fix, and only equal rows do. -/
theorem rowsAreDisjoint : Obligations.RowsAreDisjoint := fun _ _ _ => eq_of_rowMatches

/-- Settles O4: a word that decodes is its instruction's word, which is in the instruction's row; a
word of a row is the word of an instruction of the row; the third part is the first's
contrapositive. -/
theorem decoderAgreesWithTheMap : Obligations.DecoderAgreesWithTheMap := by
  refine ⟨fun w i h => ⟨rowOf_mem_opcodeRows i, rowMatches_of_decodeWord h⟩,
    fun w r => exists_decodeWord_of_rowMatches, fun w hno => ?_⟩
  cases hd : decodeWord w with
  | ok i =>
    have hyes := rowMatches_of_decodeWord hd
    rw [hno _ (rowOf_mem_opcodeRows i)] at hyes
    cases hyes
  | error e => rw [eq_invalidOpcode_of_decodeWord hd]

/-- Settles O5: the decoder evaluated on each of the twelve words. -/
theorem sampleWordsDecode : Obligations.SampleWordsDecode := by
  refine ⟨rfl, rfl, rfl, rfl, rfl, rfl, rfl, rfl, rfl, rfl, rfl, rfl⟩

end Sys2Proof
end

section
/-! Register-to-register ALU (42_alu.md): what an instruction that writes the flag and then the
result does, and the statements about the bitwise and the flag-writing instructions. -/

namespace Sys2Proof

open Sys2Proof.Machine

/-! ### The meanings -/

theorem exec_orReg (x y : RegIndex) (s : State) :
    exec (.orReg x y) s = .next (s.writeV x (s.readV x ||| s.readV y)).advance := rfl

theorem exec_andReg (x y : RegIndex) (s : State) :
    exec (.andReg x y) s = .next (s.writeV x (s.readV x &&& s.readV y)).advance := rfl

theorem exec_xorReg (x y : RegIndex) (s : State) :
    exec (.xorReg x y) s = .next (s.writeV x (s.readV x ^^^ s.readV y)).advance := rfl

theorem exec_addReg (x y : RegIndex) (s : State) :
    exec (.addReg x y) s = .next (s.writeFlagThenResult x (carryOut (s.readV x) (s.readV y))
      (s.readV x + s.readV y)).advance := rfl

theorem exec_subReg (x y : RegIndex) (s : State) :
    exec (.subReg x y) s = .next (s.writeFlagThenResult x (noBorrow (s.readV x) (s.readV y))
      (s.readV x - s.readV y)).advance := rfl

theorem exec_subnReg (x y : RegIndex) (s : State) :
    exec (.subnReg x y) s = .next (s.writeFlagThenResult x (noBorrow (s.readV y) (s.readV x))
      (s.readV y - s.readV x)).advance := rfl

theorem exec_shr (x y : RegIndex) (s : State) :
    exec (.shr x y) s =
      .next (s.writeFlagThenResult x (shiftedOutLow (s.readV x)) (s.readV x >>> 1)).advance := rfl

theorem exec_shl (x y : RegIndex) (s : State) :
    exec (.shl x y) s =
      .next (s.writeFlagThenResult x (shiftedOutHigh (s.readV x)) (s.readV x <<< 1)).advance := rfl

/-! ### The flag -/

theorem flagByte_decide (p : Prop) [Decidable p] : flagByte (decide p) = if p then 1 else 0 := by
  simp [flagByte]

theorem toNat_flagByte (f : Bool) : (flagByte f).toNat = f.toNat := by cases f <;> rfl

/-- Bit `j` of a byte as a number, the flag of the two shifts. -/
theorem toNat_getLsbD (b : Byte) (j : Nat) : (b.getLsbD j).toNat = b.toNat / 2 ^ j % 2 := by
  rw [BitVec.getLsbD, Nat.toNat_testBit]

/-- An instruction that writes the flag `f`, then the result `b` to `V[x]`, and advances: the result
stays where `x` is 15, and else the flag is in `VF` (42_alu.md R150). -/
theorem exec_writeFlagThenResult {i : Instr} {s : State} {x : RegIndex} {f : Bool} {b : Byte}
    (hexec : exec i s = .next (s.writeFlagThenResult x f b).advance) :
    ∃ t, exec i s = .next t ∧ t.readV x = b ∧ (x ≠ 15 → t.readV 15 = flagByte f) ∧
      t.pc = s.pc + 2 ∧ Keeps { regs := [x, 15] } s t := by
  refine ⟨_, hexec, ?_, fun hx => ?_, rfl, ?_⟩
  · simp
  · rw [State.readV_advance, State.readV_writeFlagThenResult, if_neg (Ne.symm hx)]
    rfl
  · exact (((Keeps.refl _ s).writeV (x := flagReg) (by simp [flagReg]) _).writeV
      List.mem_cons_self b).advance

/-- An instruction that writes a byte given bit by bit to `V[x]` and advances. -/
theorem exec_writeV_bits {i : Instr} {s : State} {x : RegIndex} {b : Byte} {bit : Nat → Bool}
    (hexec : exec i s = .next (s.writeV x b).advance) (hbit : ∀ j, b.getLsbD j = bit j) :
    ∃ t, exec i s = .next t ∧ (∀ j, (t.readV x).getLsbD j = bit j) ∧ t.pc = s.pc + 2 ∧
      Keeps { regs := [x] } s t := by
  obtain ⟨t, hexec, hread, hpc, hkeeps⟩ := exec_writeV_advance hexec
  exact ⟨t, hexec, fun j => hread ▸ hbit j, hpc, hkeeps⟩

/-- The 8-bit difference as a number. -/
theorem toNat_byte_sub (a b : Byte) : (a - b).toNat = (256 + a.toNat - b.toNat) % 256 := by
  have hb : b.toNat < 2 ^ 8 := b.isLt
  rw [BitVec.toNat_sub]
  omega

/-- The two subtractions: the difference of latched operands, and in `VF` that nothing was borrowed
(42_alu.md R156, R158). -/
theorem exec_difference {i : Instr} {s : State} {x : RegIndex} {a b : Byte}
    (hexec : exec i s = .next (s.writeFlagThenResult x (noBorrow a b) (a - b)).advance) :
    ∃ t, exec i s = .next t ∧ (t.readV x).toNat = (256 + a.toNat - b.toNat) % 256 ∧
      (x ≠ 15 → t.readV 15 = if b.toNat ≤ a.toNat then 1 else 0) ∧ t.pc = s.pc + 2 ∧
      Keeps { regs := [x, 15] } s t := by
  obtain ⟨t, hexec, hread, hflag, hpc, hkeeps⟩ := exec_writeFlagThenResult hexec
  refine ⟨t, hexec, ?_, fun hx => ?_, hpc, hkeeps⟩
  · rw [hread, toNat_byte_sub]
  · rw [hflag hx, noBorrow, flagByte_decide]

/-! ### The statements -/

/-- Settles O24: each of the three is `exec_writeV_bits` on its own combination. -/
theorem bitwiseBitByBit : Obligations.BitwiseBitByBit := fun x y s =>
  ⟨exec_writeV_bits (exec_orReg x y s) fun _ => BitVec.getLsbD_or,
    exec_writeV_bits (exec_andReg x y s) fun _ => BitVec.getLsbD_and,
    exec_writeV_bits (exec_xorReg x y s) fun _ => BitVec.getLsbD_xor⟩

/-- Settles O25: the result is the 8-bit sum, the flag the comparison of the sum with 255. -/
theorem addSetsCarry : Obligations.AddSetsCarry := by
  intro x y s
  obtain ⟨t, hexec, hread, hflag, hpc, hkeeps⟩ := exec_writeFlagThenResult (exec_addReg x y s)
  refine ⟨t, hexec, ?_, fun hx => ?_, hpc, hkeeps⟩
  · rw [hread, BitVec.toNat_add]
  · rw [hflag hx, carryOut, flagByte_decide]

/-- Settles O26: the two are `exec_difference` with the operands exchanged. -/
theorem subtractSetsNotBorrow : Obligations.SubtractSetsNotBorrow := fun x y s =>
  ⟨exec_difference (exec_subReg x y s), exec_difference (exec_subnReg x y s)⟩

/-- Settles O27: the shifted byte is the half, respectively the double modulo 256, and the flag is
the bit that the shift discards. -/
theorem shiftsMoveTheBitOut : Obligations.ShiftsMoveTheBitOut := by
  intro x y s
  have hlt : (s.readV x).toNat < 2 ^ 8 := (s.readV x).isLt
  refine ⟨?shr, ?shl⟩
  case shr =>
    obtain ⟨t, hexec, hread, hflag, hpc, hkeeps⟩ := exec_writeFlagThenResult (exec_shr x y s)
    refine ⟨t, hexec, ?_, fun hx => ?_, hpc, hkeeps⟩
    · rw [hread, BitVec.toNat_ushiftRight, Nat.shiftRight_eq_div_pow]
    · rw [hflag hx, toNat_flagByte, shiftedOutLow, toNat_getLsbD]
      omega
  case shl =>
    obtain ⟨t, hexec, hread, hflag, hpc, hkeeps⟩ := exec_writeFlagThenResult (exec_shl x y s)
    refine ⟨t, hexec, ?_, fun hx => ?_, hpc, hkeeps⟩
    · rw [hread, BitVec.toNat_shiftLeft, Nat.shiftLeft_eq]
    · rw [hflag hx, toNat_flagByte, shiftedOutHigh, toNat_getLsbD]
      omega

end Sys2Proof
end

section
/-! Control transfer (40_control.md): the two skips on registers, the jump with offset, the call and
the return. -/

namespace Sys2Proof

open Sys2Proof.Machine

/-! ### The skips on registers, and their strict low digit -/

theorem exec_seReg (x y : RegIndex) (s : State) :
    exec (.seReg x y) s = .next (s.skipIf (s.readV x == s.readV y)) := rfl

theorem exec_sneReg (x y : RegIndex) (s : State) :
    exec (.sneReg x y) s = .next (s.skipIf (s.readV x != s.readV y)) := rfl

/-- A low digit other than 0 is no instruction of the families `5` and `9`
(30_encoding.md R100, decision D22). -/
theorem decodeIfNZero_of_ne {w : Word} (i : Instr) (h : w.toNat % 16 ≠ 0) :
    decodeIfNZero w i = .error (.invalidOpcode w) := by
  have hn : fieldN w ≠ 0#4 := fun hzero => h (by rw [← toNat_fieldN, hzero]; rfl)
  exact if_neg hn

/-- Settles O18: each skip is `exec_skip` on its own comparison, and `decodeIfNZero` rejects a low
digit other than 0. -/
theorem registerSkips : Obligations.RegisterSkips := by
  refine ⟨fun x y s => ⟨toNat_wordXYN_zero 0x5#4 x y, toNat_wordXYN_zero 0x9#4 x y,
    exec_skip (exec_seReg x y s) beq_iff_eq, exec_skip (exec_sneReg x y s) bne_iff_ne⟩, ?_⟩
  rintro w (hop | hop) hn <;> rw [← toNat_fieldOp] at hop <;>
    simp only [decodeWord, hop, decodeIfNZero_of_ne _ hn]

/-! ### The jump with offset -/

theorem exec_jpV0 (nnn : Addr) (s : State) :
    exec (.jpV0 nnn) s = .next (s.setPc (offsetTarget nnn (s.readV 0))) := rfl

@[simp] theorem toNat_wideOperand (b : Byte) : (wideOperand b).toNat = b.toNat :=
  BitVec.toNat_setWidth_of_le (by decide)

/-- The sum of a 12-bit and an 8-bit value stays far below 16 bits. -/
theorem toNat_offsetTarget (nnn : Addr) (b : Byte) :
    (offsetTarget nnn b).toNat = nnn.toNat + b.toNat := by
  have hn : nnn.toNat < 2 ^ 12 := nnn.isLt
  have hb : b.toNat < 2 ^ 8 := b.isLt
  rw [offsetTarget, BitVec.toNat_add, toNat_addrOperand, toNat_wideOperand]
  omega

/-- Settles O13: the sum does not wrap, and nothing but `PC` is written. -/
theorem offsetJumpDoesNotWrap : Obligations.OffsetJumpDoesNotWrap := fun nnn s =>
  ⟨_, exec_jpV0 nnn s, toNat_offsetTarget nnn (s.readV 0), (Keeps.refl {} s).setPc _⟩

/-! ### The call and the return -/

theorem Keeps.withStack {f : Frame} {s t : State} (h : Keeps f s t) (hf : f.stack = true)
    (sp : Fin 17) (stack : Vector Word 16) : Keeps f s { t with sp := sp, stack := stack } where
  __ := h
  sp hkept := absurd (hf.symm.trans hkept) (by decide)
  stack hkept := absurd (hf.symm.trans hkept) (by decide)

theorem exec_call_of_lt (nnn : Addr) {s : State} (h : s.sp.val < 16) :
    exec (.call nnn) s =
      .next (State.setPc { s with stack := s.stack.set s.sp.val (s.pc + 2) h
                                  sp := ⟨s.sp.val + 1, by omega⟩ } (addrOperand nnn)) := by
  simp only [exec, execCall, State.push_of_lt _ h]

theorem exec_call_of_full (nnn : Addr) {s : State} (h : s.sp.val = 16) :
    exec (.call nnn) s = .fault .stackOverflow := by
  simp only [exec, execCall, State.push_of_full _ h, raiseFault]

theorem exec_ret_of_pos {s : State} (h : 0 < s.sp.val) :
    exec .ret s =
      .next (State.setPc { s with sp := ⟨s.sp.val - 1, by omega⟩ } s.stack[s.sp.val - 1]) := by
  simp only [exec, execRet, State.pop_of_pos h]

theorem exec_ret_of_empty {s : State} (h : s.sp.val = 0) :
    exec .ret s = .fault .stackUnderflow := by
  simp only [exec, execRet, State.pop_of_empty h, raiseFault]

/-- Settles O14: a push writes entry `SP` and no other, and is a fault when 16 are held. -/
theorem callPushesReturnAddress : Obligations.CallPushesReturnAddress := by
  intro nnn s
  refine ⟨fun hlt => ⟨_, exec_call_of_lt nnn hlt, rfl, fun j => ?_, toNat_addrOperand nnn, ?_⟩,
    exec_call_of_full nnn⟩
  · rw [State.stack_setPc, Vector.getElem_set]
    exact if_congr eq_comm rfl rfl
  · exact ((Keeps.refl _ s).withStack rfl _ _).setPc _

/-- Settles O15: a pop answers the last held entry and changes `SP` alone. -/
theorem returnPopsIntoPc : Obligations.ReturnPopsIntoPc := by
  intro s
  refine ⟨fun j hsp => ?_, exec_ret_of_empty⟩
  have hpred : s.sp.val - 1 = j.val := by omega
  refine ⟨_, exec_ret_of_pos (by omega), hpred, ?_, rfl, ?_⟩
  · simp only [State.pc_setPc, hpred]
  · exact ((Keeps.refl _ s).withStack rfl _ s.stack).setPc _

/-- A call that completes had room on the stack. -/
theorem sp_lt_of_exec_call {nnn : Addr} {s t : State} (h : exec (.call nnn) s = .next t) :
    s.sp.val < 16 := by
  by_contra hfull
  rw [exec_call_of_full nnn (by omega)] at h
  cases h

/-- Settles O16: the return pops entry `SP` of the call's state, which the call wrote. -/
theorem callThenReturn : Obligations.CallThenReturn := by
  intro nnn s t u hcall husp hustack
  have hlt := sp_lt_of_exec_call hcall
  obtain ⟨t', hcall', hsp, hentry, -, -⟩ := (callPushesReturnAddress nnn s).1 hlt
  obtain rfl : t = t' := Host.Outcome.next.inj (hcall.symm.trans hcall')
  obtain ⟨r, hret, hrsp, hrpc, -, -⟩ :=
    (returnPopsIntoPc u).1 ⟨s.sp.val, hlt⟩ (by rw [husp, hsp])
  refine ⟨r, hret, ?_, Fin.ext hrsp⟩
  rw [hrpc, hustack]
  exact (hentry ⟨s.sp.val, hlt⟩).trans (if_pos rfl)

end Sys2Proof
end

section
/-! The random instruction, the timers and the keys (41_load_imm.md, 45_timers.md, 44_keys.md,
60_exceptions.md): the frames of their writes and their statements. -/

namespace Sys2Proof

open Sys2Proof.Machine

/-! ### The frames of a draw, of the timers and of the wait -/

theorem Keeps.countDraw {f : Frame} {s t : State} (h : Keeps f s t) (hf : f.draws = true) :
    Keeps f s t.countDraw where
  __ := h
  draws hkept := absurd (hf.symm.trans hkept) (by decide)

theorem Keeps.setDT {f : Frame} {s t : State} (h : Keeps f s t) (hf : f.dt = true) (b : Byte) :
    Keeps f s (t.setDT b) where
  __ := h
  dt hkept := absurd (hf.symm.trans hkept) (by decide)

theorem Keeps.setST {f : Frame} {s t : State} (h : Keeps f s t) (hf : f.st = true) (b : Byte) :
    Keeps f s (t.setST b) where
  __ := h
  st hkept := absurd (hf.symm.trans hkept) (by decide)

theorem Keeps.setWait {f : Frame} {s t : State} (h : Keeps f s t) (hf : f.keyWait = true)
    (w : Option RegIndex) (k : Option KeyIndex) : Keeps f s (t.setWait w k) where
  __ := h
  wait hkept := absurd (hf.symm.trans hkept) (by decide)
  klatch hkept := absurd (hf.symm.trans hkept) (by decide)

/-! ### The random instruction -/

theorem exec_rnd (x : RegIndex) (nn : Byte) (s : State) :
    exec (.rnd x nn) s = .next ((s.writeV x (s.randomByte &&& nn)).countDraw).advance := rfl

/-- Settles O22: the drawn byte is masked before it is written, and one draw is counted. -/
theorem randomIsMasked : Obligations.RandomIsMasked := by
  intro x nn s
  have hread : ((s.writeV x (s.randomByte &&& nn)).countDraw).advance.readV x =
      Config.randomByte s.draws &&& nn := by simp [State.randomByte]
  refine ⟨_, exec_rnd x nn s, hread, fun j hj => ?_, rfl, rfl,
    (((Keeps.refl _ s).writeV List.mem_cons_self _).countDraw rfl).advance⟩
  rw [hread, BitVec.getLsbD_and, hj, Bool.and_false]

/-! ### The timers -/

theorem exec_ldVxDT (x : RegIndex) (s : State) :
    exec (.ldVxDT x) s = .next (s.writeV x s.dt).advance := rfl

theorem exec_ldDTVx (x : RegIndex) (s : State) :
    exec (.ldDTVx x) s = .next (s.setDT (s.readV x)).advance := rfl

theorem exec_ldSTVx (x : RegIndex) (s : State) :
    exec (.ldSTVx x) s = .next (s.setST (s.readV x)).advance := rfl

/-- Settles O35: one byte is copied, from `DT` or to one of the timers. -/
theorem timerAccess : Obligations.TimerAccess := fun x s =>
  ⟨exec_writeV_advance (exec_ldVxDT x s),
    ⟨_, exec_ldDTVx x s, rfl, rfl, ((Keeps.refl _ s).setDT rfl _).advance⟩,
    ⟨_, exec_ldSTVx x s, rfl, rfl, ((Keeps.refl _ s).setST rfl _).advance⟩⟩

/-- Settles O37, by induction on the number of ticks. -/
theorem ticksSaturateAtZero : Obligations.TicksSaturateAtZero := by
  intro m s
  induction m with
  | zero => exact ⟨rfl, rfl⟩
  | succ m ih =>
    obtain ⟨hdt, hst⟩ := ih
    simp only [ticks, State.dt_tick, State.st_tick, toNat_countDown, hdt, hst]
    omega

/-! ### The keys -/

theorem exec_skp (x : RegIndex) (s : State) :
    exec (.skp x) s = .next (s.skipIf (s.keyDown (keyOperand (s.readV x)))) := rfl

theorem exec_sknp (x : RegIndex) (s : State) :
    exec (.sknp x) s = .next (s.skipIf (!s.keyDown (keyOperand (s.readV x)))) := rfl

theorem exec_ldVxK (x : RegIndex) (s : State) :
    exec (.ldVxK x) s = .next (s.setWait (some x) none) := rfl

/-- The key a register selects is its low digit (44_keys.md R180, decision D17). -/
theorem keyOperand_eq {b : Byte} {k : KeyIndex} (h : k.toNat = b.toNat % 16) : keyOperand b = k :=
  BitVec.eq_of_toNat_eq ((BitVec.toNat_setWidth 4 b).trans h.symm)

/-- Settles O31: each is `exec_skip` on the level of the selected key. -/
theorem keySkips : Obligations.KeySkips := by
  intro x k s hk
  refine ⟨exec_skip (exec_skp x s) ?_, exec_skip (exec_sknp x s) ?_⟩
  · rw [keyOperand_eq hk]
  · rw [keyOperand_eq hk, Bool.not_eq_true']

/-- Settles O32: only the two registers of the wait are written. -/
theorem keyWaitBegins : Obligations.KeyWaitBegins := fun x s =>
  ⟨_, exec_ldVxK x s, rfl, rfl, rfl, (Keeps.refl _ s).setWait rfl _ _⟩

theorem latchAfter_of_first {wait : Option RegIndex} {klatch : Option KeyIndex} {pressed : Bool}
    (k : KeyIndex) (h : pressed = true ∧ wait ≠ none ∧ klatch = none) :
    latchAfter wait klatch k pressed = some k := by
  obtain ⟨hp, hw, hk⟩ := h
  simp [latchAfter, hp, hk, Option.isSome_iff_ne_none, hw]

theorem latchAfter_of_not_first {wait : Option RegIndex} {klatch : Option KeyIndex}
    {pressed : Bool} (k : KeyIndex) (h : ¬ (pressed = true ∧ wait ≠ none ∧ klatch = none)) :
    latchAfter wait klatch k pressed = klatch := by
  refine if_neg fun hlatched => h ?_
  simpa [Option.isSome_iff_ne_none, and_assoc] using hlatched

/-- Settles O34: the level is the key's alone, and the latch is `latchAfter`. -/
theorem keyEventLatchesFirstPress : Obligations.KeyEventLatchesFirstPress := fun s k pressed =>
  ⟨fun j => State.keyDown_keyEvent s k j pressed, latchAfter_of_first k, latchAfter_of_not_first k,
    rfl⟩

end Sys2Proof
end

section
/-! Index and memory (46_index_memory.md): the frame of a block store, the values of the two index
instructions, and the statements about the digits and the block store and load. -/

namespace Sys2Proof

open Sys2Proof.Machine

/-! ### The frames of a block store and of a write of several registers -/

theorem Keeps.writeBlock {f : Frame} {s t : State} (h : Keeps f s t) {bs : List Byte}
    (hf : ∀ j < bs.length, ea t.index j ∈ f.stored) : Keeps f s (t.writeBlock bs) where
  __ := h
  memory a ha := by
    refine (State.readMem_writeBlock_of_notMem t bs a fun j hj he => ha ?_).trans (h.memory a ha)
    exact he ▸ hf j hj

theorem Keeps.writeVs {f : Frame} {s : State} (k : Nat) (bs : List Byte) {t : State}
    (h : Keeps f s t) (hf : ∀ j < bs.length, BitVec.ofNat 4 (k + j) ∈ f.regs) :
    Keeps f s (State.writeVs k bs t) := by
  induction bs generalizing k t with
  | nil => exact h
  | cons b bs ih =>
    refine ih (k + 1) (h.writeV (hf 0 (Nat.succ_pos _)) b) fun j hj => ?_
    have := hf (j + 1) (by simpa using hj)
    rwa [show k + (j + 1) = k + 1 + j by omega] at this

/-! ### The index -/

theorem exec_addI (x : RegIndex) (s : State) :
    exec (.addI x) s = .next (s.setIndex (indexSum s.index (s.readV x))).advance := rfl

theorem exec_ldF (x : RegIndex) (s : State) :
    exec (.ldF x) s = .next (s.setIndex (glyphAddress (s.readV x))).advance := rfl

/-- The mask of the low 12 bits is the remainder modulo 4096, and 65536 is a multiple of 4096. -/
theorem toNat_indexSum (i : Word) (b : Byte) :
    (indexSum i b).toNat = (i.toNat + b.toNat) % 4096 := by
  have hmask : (0x0FFF#16).toNat = 2 ^ 12 - 1 := rfl
  rw [indexSum, BitVec.toNat_and, hmask, Nat.and_two_pow_sub_one_eq_mod, BitVec.toNat_add,
    toNat_wideOperand]
  omega

/-- The largest glyph address is `0x1B0 + 5 * 255`, which 16 bits hold. -/
theorem toNat_glyphAddress (b : Byte) :
    (glyphAddress b).toNat = Config.fontBase.val + 5 * b.toNat ∧
      (glyphAddress b).toNat ≤ 0x6AB := by
  have hbase : Config.fontBase.val < 0x1B1 := Config.fontBase.isLt
  have hb : b.toNat < 2 ^ 8 := b.isLt
  rw [glyphAddress, BitVec.toNat_ofNat, Nat.mod_eq_of_lt (by omega)]
  omega

/-- Settles O38: `toNat_indexSum`, and only `I` and `PC` are written. -/
theorem addIndexWraps : Obligations.AddIndexWraps := fun x s =>
  ⟨_, exec_addI x s, toNat_indexSum s.index (s.readV x), rfl,
    ((Keeps.refl _ s).setIndex rfl _).advance⟩

/-- Settles O39: `toNat_glyphAddress`, and only `I` and `PC` are written. -/
theorem glyphAddress : Obligations.GlyphAddress := fun x s =>
  ⟨_, exec_ldF x s, (toNat_glyphAddress (s.readV x)).1, (toNat_glyphAddress (s.readV x)).2, rfl,
    ((Keeps.refl _ s).setIndex rfl _).advance⟩

/-! ### The digits -/

theorem exec_ldB (x : RegIndex) (s : State) :
    exec (.ldB x) s = .next (s.writeBlock (bcdDigits (s.readV x))).advance := rfl

theorem map_toNat_bcdDigits (b : Byte) : (bcdDigits b).map BitVec.toNat =
    [b.toNat / 100, b.toNat / 10 % 10, b.toNat % 10] := by
  have hb : b.toNat < 2 ^ 8 := b.isLt
  simp only [bcdDigits, List.map_cons, List.map_nil, BitVec.toNat_ofNat, List.cons.injEq, and_true]
  omega

/-- A stored digit reads back as a number. -/
theorem toNat_readMem_writeBlock_bcdDigits (s : State) (b : Byte) (j : Nat) (hj : j < 3) :
    ((s.writeBlock (bcdDigits b)).readMem (ea s.index j)).toNat =
      [b.toNat / 100, b.toNat / 10 % 10, b.toNat % 10][j] := by
  rw [State.readMem_writeBlock s (bcdDigits b) (by simp [bcdDigits]) j hj]
  simp only [← map_toNat_bcdDigits]
  exact (List.getElem_map _).symm

/-- Settles O40: the three stored bytes read back, and the three digits of a byte sum to it. -/
theorem bcdDigitsStored : Obligations.BcdDigitsStored := by
  intro x s
  have hread := toNat_readMem_writeBlock_bcdDigits s (s.readV x)
  refine ⟨_, exec_ldB x s, ?_, ?_, ?_, rfl, ((Keeps.refl _ s).writeBlock ?_).advance⟩
  · simp only [State.readMem_advance, hread 0 (by decide), hread 1 (by decide),
      hread 2 (by decide), List.getElem_cons_zero, List.getElem_cons_succ]
    omega
  · simp only [State.readMem_advance, hread 1 (by decide), List.getElem_cons_zero,
      List.getElem_cons_succ]
    omega
  · simp only [State.readMem_advance, hread 2 (by decide), List.getElem_cons_zero,
      List.getElem_cons_succ]
    omega
  · exact fun j hj =>
      List.mem_map_of_mem (f := ea s.index) (l := List.range 3) (List.mem_range.mpr hj)

/-! ### The block store and the block load -/

theorem exec_storeRegs (x : RegIndex) (s : State) :
    exec (.storeRegs x) s = .next (s.writeBlock (s.readVs (x.toNat + 1))).advance := rfl

theorem exec_loadRegs (x : RegIndex) (s : State) :
    exec (.loadRegs x) s = .next (State.writeVs 0 (s.readBlock (x.toNat + 1)) s).advance := rfl

@[simp] theorem ofNat_toNat_regIndex (k : RegIndex) : BitVec.ofNat 4 k.toNat = k := by
  rw [BitVec.ofNat_toNat, BitVec.setWidth_eq]

/-- Settles O41: the block of at most 16 bytes reads back, and byte `k` of it is `V[k]`. -/
theorem blockStore : Obligations.BlockStore := by
  intro x s
  have hx : x.toNat < 2 ^ 4 := x.isLt
  have hlen : (s.readVs (x.toNat + 1)).length = x.toNat + 1 := State.length_readVs _ _
  refine ⟨_, exec_storeRegs x s, fun k hk => ?_, rfl,
    ((Keeps.refl _ s).writeBlock fun j hj => ?_).advance⟩
  · have hread := State.readMem_writeBlock s (s.readVs (x.toNat + 1)) (by omega) k.toNat (by omega)
    rw [State.readMem_advance, hread, State.getElem_readVs, ofNat_toNat_regIndex]
  · exact List.mem_map_of_mem (List.mem_range.mpr (hlen ▸ hj))

/-- Settles O42: `writeVs` writes the block of at most 16 bytes from `V[0]` up. -/
theorem blockLoad : Obligations.BlockLoad := by
  intro x s
  have hx : x.toNat < 2 ^ 4 := x.isLt
  have hlen : (s.readBlock (x.toNat + 1)).length = x.toNat + 1 := State.length_readBlock _ _
  refine ⟨_, exec_loadRegs x s, fun k => ?_, ?_, (Keeps.writeVs 0 _ (Keeps.refl _ s)
    fun j hj => ?_).advance⟩
  · rw [State.readV_advance, State.readV_writeVs 0 _ s (by omega)]
    simp only [State.getElem_readBlock, hlen, Nat.zero_le, true_and, Nat.zero_add, Nat.sub_zero,
      dite_eq_ite, Nat.lt_succ_iff]
  · rw [State.pc_advance, State.writeVs_eq]
  · rw [Nat.zero_add]
    exact List.mem_map_of_mem (List.mem_range.mpr (hlen ▸ hj))

/-- Settles O43: the load reads at `ea(k)` what the store put there, since `I` and memory are those
after the store. -/
theorem storeThenLoadRestores : Obligations.StoreThenLoadRestores := by
  intro x s t u hstore hindex hmem
  obtain ⟨t', hstore', hstored, -, hkeeps⟩ := blockStore x s
  obtain rfl : t = t' := Host.Outcome.next.inj (hstore.symm.trans hstore')
  obtain ⟨r, hload, hloaded, -, -⟩ := blockLoad x u
  refine ⟨r, hload, fun k hk => ?_⟩
  have hsame : u.readMem (ea u.index k.toNat) = t.readMem (ea s.index k.toNat) := by
    rw [hindex, hkeeps.index rfl, State.readMem, State.readMem, hmem]
  rw [hloaded k, if_pos hk, hsame, hstored k hk]

end Sys2Proof
end

section
/-! The sprite engine (43_display.md): the draw instruction as the laws of the sprite engine say it,
and the statements about one draw and about two. -/

namespace Sys2Proof

open Sys2Proof.Machine

theorem exec_drw (x y : RegIndex) (n : BitVec 4) (s : State) :
    exec (.drw x y n) s =
      .next ((s.setFB (drawSprite (s.readV x) (s.readV y) (s.readBlock n.toNat) s.fb).fb).writeV
        flagReg (flagByte (drawSprite (s.readV x) (s.readV y) (s.readBlock n.toNat)
          s.fb).collision)).advance := rfl

/-- The sprite's bit on a pixel, as the sprite engine's laws and as the statements speak of it. -/
theorem spriteBitAt_readBlock_iff (s : State) (ox oy : Byte) (n : Nat) {cx cy : Nat}
    (hx : cx < 64) (hy : cy < 32) :
    spriteBitAt ox.toNat oy.toNat (s.readBlock n) cx cy = true ↔ spriteCovers s ox oy n cx cy := by
  simp only [spriteBitAt_iff, State.length_readBlock, State.getElem_readBlock, rowBitAt,
    List.any_eq_true, List.mem_range, Bool.and_eq_true, decide_eq_true_eq, Nat.mod_eq_of_lt hx,
    Nat.mod_eq_of_lt hy, spriteCovers, spriteBitOn]
  constructor
  · rintro ⟨r, hr, hrow, b, hb, hcol, hbit⟩
    exact ⟨r, b, hr, hb, ⟨hbit, hcol⟩, hrow.symm⟩
  · rintro ⟨r, b, hr, hb, ⟨hbit, hcol⟩, hrow⟩
    exact ⟨r, hr, hrow.symm, b, hb, hcol, hbit⟩

theorem flagByte_eq_one_iff (f : Bool) : flagByte f = 1 ↔ f = true := by cases f <;> decide

theorem flagByte_eq_zero_or_one (f : Bool) : flagByte f = 0 ∨ flagByte f = 1 := by
  cases f
  · exact .inl rfl
  · exact .inr rfl

/-- A draw: every pixel is XORed with the sprite's bit there, and `VF` is 1 exactly when a 1 bit of
the sprite falls on a pixel that was on (43_display.md R171 to R173). -/
theorem exec_drw_spec (x y : RegIndex) (n : BitVec 4) (s : State) :
    ∃ t, exec (.drw x y n) s = .next t ∧
      (∀ cx cy, t.pixel cx cy = (s.pixel cx cy ^^
        spriteBitAt (s.readV x).toNat (s.readV y).toNat (s.readBlock n.toNat) cx cy)) ∧
      (t.readV 15 = 0 ∨ t.readV 15 = 1) ∧
      (t.readV 15 = 1 ↔ ∃ cx cy, cx < 64 ∧ cy < 32 ∧ s.pixel cx cy = true ∧
        spriteCovers s (s.readV x) (s.readV y) n.toNat cx cy) ∧
      t.pc = s.pc + 2 ∧ Keeps { regs := [15], screen := true } s t := by
  have hlen : (s.readBlock n.toNat).length ≤ 32 := by
    have hn : n.toNat < 2 ^ 4 := n.isLt
    rw [State.length_readBlock]
    omega
  have hvf : (15 : RegIndex) = flagReg := rfl
  refine ⟨_, exec_drw x y n s, fun cx cy => ?pixel, ?flag, ?collision, rfl,
    (((Keeps.refl _ s).setFB rfl _).writeV (x := flagReg) List.mem_cons_self _).advance⟩
  case pixel => exact pixel_drawRows _ _ _ hlen _ cx cy
  case flag =>
    rw [State.readV_advance, State.readV_writeV, if_pos hvf]
    exact flagByte_eq_zero_or_one _
  case collision =>
    rw [State.readV_advance, State.readV_writeV, if_pos hvf, flagByte_eq_one_iff, drawSprite,
      collision_drawRows _ _ _ hlen]
    simp only [Bool.false_eq_true, false_or]
    refine exists_congr fun cx => exists_congr fun cy => and_congr_right fun hx =>
      and_congr_right fun hy => and_congr_right fun _ => ?_
    exact spriteBitAt_readBlock_iff s _ _ _ hx hy

/-- XOR with a bit changes a pixel exactly when the bit is 1. -/
theorem xor_ne_self_iff (p b : Bool) : (p ^^ b) ≠ p ↔ b = true := by
  cases p <;> cases b <;> decide

/-- Settles O29: `exec_drw_spec`; a pixel that is on and covered is the pixel that goes off. -/
theorem drawXorsTheSprite : Obligations.DrawXorsTheSprite := by
  intro x y n s
  obtain ⟨t, hexec, hpixel, hflag, hcollision, hpc, hkeeps⟩ := exec_drw_spec x y n s
  have hchange : ∀ cx cy, cx < 64 → cy < 32 → (t.pixel cx cy ≠ s.pixel cx cy ↔
      spriteCovers s (s.readV x) (s.readV y) n.toNat cx cy) := fun cx cy hx hy => by
    rw [hpixel, xor_ne_self_iff]
    exact spriteBitAt_readBlock_iff s _ _ _ hx hy
  refine ⟨t, hexec, hchange, hflag, hcollision.trans ?_, hpc, hkeeps⟩
  refine exists_congr fun cx => exists_congr fun cy => and_congr_right fun hx =>
    and_congr_right fun hy => and_congr_right fun hon => ?_
  rw [← hchange cx cy hx hy, hon, ne_eq, Bool.not_eq_true]

/-- Settles O30: the first draw keeps `I`, memory and the origin's registers, so the second draw is
the same XOR. -/
theorem drawTwiceRestores : Obligations.DrawTwiceRestores := by
  intro x y n s t u hx hy hfirst hsecond
  obtain ⟨t', hfirst', hpixel, -, -, -, hkeeps⟩ := exec_drw_spec x y n s
  obtain rfl : t = t' := Host.Outcome.next.inj (hfirst.symm.trans hfirst')
  obtain ⟨u', hsecond', hpixel', -, hcollision', -⟩ := exec_drw_spec x y n t
  obtain rfl : u = u' := Host.Outcome.next.inj (hsecond.symm.trans hsecond')
  have hindex : t.index = s.index := hkeeps.index rfl
  have hmem : ∀ a, t.readMem a = s.readMem a := fun a => hkeeps.memory a List.not_mem_nil
  have hvx : t.readV x = s.readV x := hkeeps.regs x (by simpa using hx)
  have hvy : t.readV y = s.readV y := hkeeps.regs y (by simpa using hy)
  have hblock : t.readBlock n.toNat = s.readBlock n.toNat := by
    simp only [State.readBlock, hindex, hmem]
  refine ⟨fun cx cy => ?_, hcollision'.trans ?_⟩
  · rw [hpixel', hpixel, hvx, hvy, hblock, Bool.xor_assoc, Bool.xor_self, Bool.xor_false]
  · simp only [spriteCovers, spriteBitOn, hvx, hvy, hindex, hmem]

end Sys2Proof
end

section
/-! Faults (60_exceptions.md): which instructions fault and when, and that a fault stays while
nothing but ticks and key events comes. -/

namespace Sys2Proof

open Sys2Proof.Machine

/-! ### What an instruction can answer -/

/-- An instruction that works on no stack completes in every state. -/
theorem exec_next_of_no_stack {i : Instr} (s : State) (hcall : ∀ nnn, i ≠ .call nnn)
    (hret : i ≠ .ret) : ∃ t, exec i s = .next t := by
  cases i with
  | call nnn => exact absurd rfl (hcall nnn)
  | ret => exact absurd rfl hret
  | _ => exact ⟨_, rfl⟩

/-- Everything an instruction can answer (60_exceptions.md R221, R222, R227). -/
theorem exec_outcome (i : Instr) (s : State) :
    (exec i s = .fault .stackOverflow ∧ (∃ nnn, i = .call nnn) ∧ s.sp.val = 16) ∨
    (exec i s = .fault .stackUnderflow ∧ i = .ret ∧ s.sp.val = 0) ∨
    ((∃ t, exec i s = .next t) ∧ ¬ ((∃ nnn, i = .call nnn) ∧ s.sp.val = 16) ∧
      ¬ (i = .ret ∧ s.sp.val = 0)) := by
  by_cases hcall : ∃ nnn, i = .call nnn
  · obtain ⟨nnn, rfl⟩ := hcall
    by_cases hfull : s.sp.val = 16
    · exact .inl ⟨exec_call_of_full nnn hfull, ⟨nnn, rfl⟩, hfull⟩
    · exact .inr (.inr ⟨⟨_, exec_call_of_lt nnn (by omega)⟩, by simp [hfull], by simp⟩)
  by_cases hret : i = .ret
  · subst hret
    by_cases hempty : s.sp.val = 0
    · exact .inr (.inl ⟨exec_ret_of_empty hempty, rfl, hempty⟩)
    · exact .inr (.inr ⟨⟨_, exec_ret_of_pos (by omega)⟩, by simp, by simp [hempty]⟩)
  · exact .inr (.inr ⟨exec_next_of_no_stack s (not_exists.mp hcall) hret,
      fun h => hcall h.1, fun h => hret h.1⟩)

theorem exec_eq_fault_iff (i : Instr) (s : State) (f : Fault) :
    exec i s = .fault f ↔
      (f = .stackOverflow ∧ (∃ nnn, i = .call nnn) ∧ s.sp.val = 16) ∨
      (f = .stackUnderflow ∧ i = .ret ∧ s.sp.val = 0) := by
  constructor
  · intro h
    rcases exec_outcome i s with ⟨hexec, hwhen⟩ | ⟨hexec, hwhen⟩ | ⟨⟨t, hexec⟩, -⟩ <;>
      rw [hexec] at h
    · exact .inl ⟨(Host.Outcome.fault.inj h).symm, hwhen⟩
    · exact .inr ⟨(Host.Outcome.fault.inj h).symm, hwhen⟩
    · cases h
  · rintro (⟨rfl, ⟨nnn, rfl⟩, hfull⟩ | ⟨rfl, rfl, hempty⟩)
    · exact exec_call_of_full nnn hfull
    · exact exec_ret_of_empty hempty

theorem exec_fault_or_next (i : Instr) (s : State) :
    (∃ f, exec i s = .fault f) ∨ ∃ t, exec i s = .next t := by
  rcases exec_outcome i s with ⟨hexec, -⟩ | ⟨hexec, -⟩ | ⟨hnext, -⟩
  · exact .inl ⟨_, hexec⟩
  · exact .inl ⟨_, hexec⟩
  · exact .inr hnext

/-- Settles O44: `exec_outcome` read for the faults and for the rest. -/
theorem faultsAreTheStackFaults : Obligations.FaultsAreTheStackFaults := fun i s =>
  ⟨exec_eq_fault_iff i s, exec_fault_or_next i s⟩

/-! ### A fault repeats (60_exceptions.md R223) -/

/-- The interpreter faults only by an instruction it has fetched. -/
theorem interpret_eq_fault {s : State} {f : Fault} (h : interpret s = .fault f) :
    s.wait = none ∧ s.halted = false ∧
      ∃ i, decodeWord s.fetchWord = .ok i ∧ exec i s = .fault f := by
  rcases interpret_cases s with ⟨x, -, -, hint⟩ | ⟨x, k, -, -, hint⟩ | ⟨-, -, hint⟩ |
    ⟨i, hwait, hhalted, hdecode, hint⟩ | ⟨e, -, -, -, hint⟩ <;> rw [hint] at h
  case inr.inr.inr.inl => exact ⟨hwait, hhalted, i, hdecode, h⟩
  all_goals cases h

/-- What a fault depends on: that no key is awaited, `PC`, memory and `SP`. -/
structure SameFaultInputs (s t : State) : Prop where
  wait : t.wait = s.wait
  pc : t.pc = s.pc
  mem : t.mem = s.mem
  sp : t.sp = s.sp

theorem SameFaultInputs.interpret_fault {s t : State} (hsame : SameFaultInputs s t) {f : Fault}
    (h : interpret s = .fault f) : interpret t = .fault f := by
  obtain ⟨hwait, hhalted, i, hdecode, hexec⟩ := interpret_eq_fault h
  have hfetch : t.fetchWord = s.fetchWord := by
    simp only [State.fetchWord, State.readMem, hsame.pc, hsame.mem]
  have hhalted' : t.halted = false := by rw [State.halted, hsame.pc]; exact hhalted
  rw [interpret_of_decoded (hsame.wait.trans hwait) hhalted' (hfetch ▸ hdecode)]
  rw [exec_eq_fault_iff] at hexec ⊢
  rwa [hsame.sp]

/-- A tick or a key event completes and leaves what a fault depends on. -/
theorem perform_input {e : Transition} (he : e = .tick ∨ ∃ k p, e = .keyEvent k p) (s : State) :
    ∃ t, perform e s = .next t ∧ t.requests = s.requests ∧ SameFaultInputs s t := by
  rcases he with rfl | ⟨k, p, rfl⟩
  · exact ⟨s.tick, rfl, rfl, rfl, rfl, rfl, rfl⟩
  · exact ⟨s.keyEvent k p, rfl, rfl, rfl, rfl, rfl, rfl⟩

theorem core_run_succ {s t : State} (h : step s = .next t) (k : Nat) :
    core.run (k + 1) s = core.run k t := by
  have hstep : core.step s = .next t := h
  simp only [Host.Core.run, hstep]

/-- Settles O45, by induction on the pending requests. -/
theorem faultRepeatsAfterInputs : Obligations.FaultRepeatsAfterInputs := by
  intro s f hinputs hfault
  generalize hrequests : s.requests = pending at hinputs ⊢
  induction pending generalizing s with
  | nil => exact ⟨s, rfl, hrequests, (step_of_no_requests hrequests).trans hfault⟩
  | cons e es ih =>
    obtain ⟨t, hperform, ht, hsame⟩ :=
      perform_input (hinputs e List.mem_cons_self) (s.setRequests es)
    have hstep : step s = .next t := (step_of_request hrequests).trans hperform
    have hsame' : SameFaultInputs s t := ⟨hsame.wait, hsame.pc, hsame.mem, hsame.sp⟩
    obtain ⟨u, hrun, hu⟩ := ih t (hsame'.interpret_fault hfault) ht fun e' he' =>
      hinputs e' (List.mem_cons_of_mem _ he')
    exact ⟨u, (core_run_succ hstep es.length).trans hrun, hu⟩

end Sys2Proof
end

section
/-! The step cycle (30_encoding.md R105, 60_exceptions.md R220): the fetch, the report of each kind
of step, and the statements about them. -/

namespace Sys2Proof

open Sys2Proof.Machine

/-! ### The fetch -/

/-- Settles O6: the two bytes are joined high byte first. -/
theorem fetchIsBigEndian : Obligations.FetchIsBigEndian := fun _ => toNat_joinBytes _ _

/-- Two bytes decode as the word they join to. -/
theorem decodeWord_of_decode {hi lo : Byte} {i : Instr} {rest : List Byte}
    (h : decode [hi, lo] = .ok (i, rest)) : decodeWord (joinBytes hi lo) = .ok i := by
  simp only [decode] at h
  split at h
  case h_1 hword => cases h; exact hword
  case h_2 => cases h

theorem halted_eq_false_iff {s : State} : s.halted = false ↔ s.pc.toNat ≤ 0xFFE :=
  decide_eq_false_iff_not.trans Nat.not_lt

/-- Settles O7: the fetched word is the two bytes joined. -/
theorem stepRunsTheDecodedInstruction : Obligations.StepRunsTheDecodedInstruction := by
  intro s i rest hrequests hwait hpc hdecode
  rw [step_of_no_requests hrequests]
  exact interpret_of_decoded hwait (halted_eq_false_iff.mpr hpc) (decodeWord_of_decode hdecode)

/-- Settles O11: each part is the request's own arm of `perform`. -/
theorem requestsArePerformedInOrder : Obligations.RequestsArePerformedInOrder := fun _ _ =>
  ⟨step_of_request, step_of_request, fun _ _ => step_of_request, fun _ => step_of_request,
    step_of_request⟩

/-! ### The report -/

theorem report_of_next {s t : State} (h : interpret s = .next t) :
    report s = .ok (t.wait.isNone && t.halted) t.wait.isSome (invalidOpcodeAt s) := by
  simp only [report, h]

theorem invalidOpcodeAt_of_waiting {s : State} {x : RegIndex} (hwait : s.wait = some x) :
    invalidOpcodeAt s = none := by
  simp [invalidOpcodeAt, hwait]

theorem invalidOpcodeAt_of_halted {s : State} (hhalted : s.halted = true) :
    invalidOpcodeAt s = none := by
  simp [invalidOpcodeAt, hhalted]

theorem invalidOpcodeAt_of_decoded {s : State} {i : Instr}
    (hdecode : decodeWord s.fetchWord = .ok i) : invalidOpcodeAt s = none := by
  simp [invalidOpcodeAt, hdecode]

theorem invalidOpcodeAt_of_invalid {s : State} {e : DecodeError} (hwait : s.wait = none)
    (hhalted : s.halted = false) (hdecode : decodeWord s.fetchWord = .error e) :
    invalidOpcodeAt s = some (s.fetchWord, s.pc) := by
  simp [invalidOpcodeAt, hwait, hhalted, hdecode]

/-- Settles O8: the step only advances, and its report carries the word and the address. -/
theorem invalidOpcodeAdvances : Obligations.InvalidOpcodeAdvances := by
  intro s e hrequests hwait hpc hdecode
  have hhalted := halted_eq_false_iff.mpr hpc
  have hint := interpret_of_invalid hwait hhalted hdecode
  refine ⟨s.advance, (step_of_no_requests hrequests).trans hint, rfl, (Keeps.refl _ s).advance, ?_⟩
  rw [report_of_next hint, invalidOpcodeAt_of_invalid hwait hhalted hdecode, State.wait_advance,
    hwait]
  rfl

/-- Settles O9: the halted step answers its own state, in which `PC` is above `0xFFE`. -/
theorem haltedStepChangesNothing : Obligations.HaltedStepChangesNothing := by
  intro s hrequests hwait hpc
  have hhalted : s.halted = true := decide_eq_true hpc
  have hint := interpret_of_halted hwait hhalted
  refine ⟨(step_of_no_requests hrequests).trans hint, ?_⟩
  rw [report_of_next hint, invalidOpcodeAt_of_halted hhalted, hwait, hhalted]
  rfl

/-- Settles O33: the two arms of a step while a key is awaited. -/
theorem keyWaitCompletes : Obligations.KeyWaitCompletes := by
  intro s x hrequests hwait
  refine ⟨fun hklatch => ?waiting, fun k hklatch => ?latched⟩
  case waiting =>
    have hint := interpret_of_waiting hwait hklatch
    refine ⟨(step_of_no_requests hrequests).trans hint, ?_⟩
    rw [report_of_next hint, invalidOpcodeAt_of_waiting hwait, hwait]
    rfl
  case latched =>
    have hint := interpret_of_latched hwait hklatch
    refine ⟨s.completeWait x k, (step_of_no_requests hrequests).trans hint, ?_, rfl, rfl, rfl,
      ?_, ?_⟩
    · rw [State.completeWait, State.readV_setWait, State.readV_advance, State.readV_writeV,
        if_pos rfl, BitVec.toNat_setWidth_of_le (by decide)]
    · exact ((Keeps.refl _ s).writeV List.mem_cons_self _).advance.setWait rfl none none
    · rw [report_of_next hint, invalidOpcodeAt_of_waiting hwait]
      rfl

/-- A step that ends awaiting a key has no invalid opcode to report: such a step only advances. -/
theorem invalidOpcodeAt_of_awaiting {s t : State} (hint : interpret s = .next t)
    (ht : t.wait.isSome = true) : invalidOpcodeAt s = none := by
  rcases interpret_cases s with ⟨x, hwait, -, -⟩ | ⟨x, k, hwait, -, -⟩ | ⟨-, hhalted, -⟩ |
    ⟨i, -, -, hdecode, -⟩ | ⟨e, hwait, -, -, hadvance⟩
  · exact invalidOpcodeAt_of_waiting hwait
  · exact invalidOpcodeAt_of_waiting hwait
  · exact invalidOpcodeAt_of_halted hhalted
  · exact invalidOpcodeAt_of_decoded hdecode
  · obtain rfl : s.advance = t := Host.Outcome.next.inj (hadvance.symm.trans hint)
    rw [State.wait_advance, hwait] at ht
    cases ht

theorem interpret_fault_or_next (s : State) :
    (∃ f, interpret s = .fault f) ∨ ∃ t, interpret s = .next t := by
  rcases interpret_cases s with ⟨x, -, -, hint⟩ | ⟨x, k, -, -, hint⟩ | ⟨-, -, hint⟩ |
    ⟨i, -, -, -, hint⟩ | ⟨e, -, -, -, hint⟩
  case inr.inr.inr.inl => rw [hint]; exact exec_fault_or_next i s
  all_goals exact .inr ⟨_, hint⟩

/-- Settles O10: the report of a completed step is `report_of_next`, whose halted bit asks that no
key is awaited. -/
theorem outcomeShape : Obligations.OutcomeShape := by
  intro s
  rcases interpret_fault_or_next s with ⟨f, hint⟩ | ⟨t, hint⟩
  · exact .inl ⟨f, by simp only [report, hint], hint⟩
  · refine .inr ⟨t, _, _, _, report_of_next hint, hint, Iff.rfl, ?_, fun hawaiting => ⟨?_, ?_⟩⟩
    · rw [Bool.and_eq_true, Option.isNone_iff_eq_none, State.halted, decide_eq_true_iff]
    · rw [← Option.not_isSome, hawaiting]
      rfl
    · exact invalidOpcodeAt_of_awaiting hint hawaiting

end Sys2Proof
end

section
/-! What an instruction can change (10_state.md, 20_memory.md): one inversion lemma over all 34
instructions, and the statements that read it. -/

namespace Sys2Proof

open Sys2Proof.Machine

/-! ### The kinds of change -/

/-- The kinds of change that a completed instruction makes, one constructor per part of the state
that is written, each with the instructions that write it. `effect_of_exec` ties it to `exec`. -/
inductive Effect (s : State) : Instr → State → Prop where
  | registers {i : Instr} (v : Vector Byte 16)
      (hwriter : ∀ r, State.readV { s with v := v } r ≠ s.readV r →
        writesData r i = true ∨ (r = 15 ∧ writesFlag i = true)) :
      Effect s i (State.advance { s with v := v })
  | random (x : RegIndex) (nn b : Byte) : Effect s (.rnd x nn) ((s.writeV x b).countDraw).advance
  | skip {i : Instr} (hskip : isSkip i = true) (c : Bool) : Effect s i (s.skipIf c)
  | jump {i : Instr} (hjump : setsPc i = true) (w : Word) (hw : w.toNat ≤ 0x10FE) :
      Effect s i (s.setPc w)
  | call (nnn : Addr) (hroom : s.sp.val < 16) :
      Effect s (.call nnn)
        (State.setPc { s with stack := s.stack.set s.sp.val (s.pc + 2) hroom
                              sp := ⟨s.sp.val + 1, by omega⟩ } (addrOperand nnn))
  | ret (hheld : 0 < s.sp.val) :
      Effect s .ret
        (State.setPc { s with sp := ⟨s.sp.val - 1, by omega⟩ } s.stack[s.sp.val - 1])
  | index {i : Instr} (hindex : (∃ a, i = .ldI a) ∨ (∃ x, i = .addI x) ∨ ∃ x, i = .ldF x)
      (w : Word) (hw : w.toNat ≤ 0xFFF) : Effect s i (s.setIndex w).advance
  | store {i : Instr} (hstore : (∃ x, i = .ldB x) ∨ ∃ x, i = .storeRegs x) (bs : List Byte) :
      Effect s i (s.writeBlock bs).advance
  | delayTimer (x : RegIndex) (b : Byte) : Effect s (.ldDTVx x) (s.setDT b).advance
  | soundTimer (x : RegIndex) (b : Byte) : Effect s (.ldSTVx x) (s.setST b).advance
  | clear (fb : FrameBuffer) : Effect s .cls (s.setFB fb).advance
  | draw (x y : RegIndex) (n : BitVec 4) (fb : FrameBuffer) (b : Byte) :
      Effect s (.drw x y n) ((s.setFB fb).writeV 15 b).advance
  | wait (x : RegIndex) : Effect s (.ldVxK x) (s.setWait (some x) none)

theorem Effect.writeV {i : Instr} {s : State} {x : RegIndex} (hdata : writesData x i = true)
    (b : Byte) : Effect s i (s.writeV x b).advance := by
  refine .registers (s.writeV x b).v fun r hr => .inl ?_
  by_cases hrx : r = x
  · rwa [hrx]
  · exact absurd ((State.readV_writeV s x r b).trans (if_neg hrx)) hr

theorem Effect.writeFlagThenResult {i : Instr} {s : State} {x : RegIndex}
    (hdata : writesData x i = true) (hflag : writesFlag i = true) (f : Bool) (b : Byte) :
    Effect s i (s.writeFlagThenResult x f b).advance := by
  refine .registers (s.writeFlagThenResult x f b).v fun r hr => ?_
  have hread := State.readV_writeFlagThenResult s x r f b
  by_cases hrx : r = x
  · exact .inl (hrx ▸ hdata)
  by_cases hr15 : r = flagReg
  · exact .inr ⟨hr15, hflag⟩
  · exact absurd (hread.trans ((if_neg hrx).trans (if_neg hr15))) hr

/-- The block load writes the registers up to `V[x]` (46_index_memory.md R205). -/
theorem Effect.loadRegs (s : State) (x : RegIndex) :
    Effect s (.loadRegs x) (State.writeVs 0 (s.readBlock (x.toNat + 1)) s).advance := by
  rw [State.writeVs_eq]
  refine .registers _ fun r hr => .inl (decide_eq_true ?_)
  by_contra hgt
  refine hr (State.writeVs_eq 0 (s.readBlock (x.toNat + 1)) s ▸ ?_)
  have hx : x.toNat < 2 ^ 4 := x.isLt
  have hlen : (s.readBlock (x.toNat + 1)).length = x.toNat + 1 := State.length_readBlock _ _
  rw [State.readV_writeVs 0 _ s (by omega), dif_neg (by omega)]

/-! ### The ranges of the values written to `PC` and `I` -/

theorem addrOperand_le (nnn : Addr) : (addrOperand nnn).toNat ≤ 0xFFF := by
  rw [toNat_addrOperand]
  exact Nat.le_of_lt_succ nnn.isLt

/-- The largest target of a jump with offset is `0xFFF + 0xFF` (10_state.md R37 (c)). -/
theorem offsetTarget_le (nnn : Addr) (b : Byte) : (offsetTarget nnn b).toNat ≤ 0x10FE := by
  have hn : nnn.toNat < 2 ^ 12 := nnn.isLt
  have hb : b.toNat < 2 ^ 8 := b.isLt
  rw [toNat_offsetTarget]
  omega

theorem indexSum_le (i : Word) (b : Byte) : (indexSum i b).toNat ≤ 0xFFF := by
  rw [toNat_indexSum]
  omega

/-- A return that completes had an address held. -/
theorem sp_pos_of_exec_ret {s t : State} (h : exec .ret s = .next t) : 0 < s.sp.val := by
  by_contra hempty
  rw [exec_ret_of_empty (by omega)] at h
  cases h

/-- Everything a completed instruction can change. -/
theorem effect_of_exec {i : Instr} {s t : State} (h : exec i s = .next t) : Effect s i t := by
  cases i with
  | cls => cases h; exact .clear _
  | ret =>
    have hheld := sp_pos_of_exec_ret h
    rw [exec_ret_of_pos hheld] at h
    cases h
    exact .ret hheld
  | call nnn =>
    have hroom := sp_lt_of_exec_call h
    rw [exec_call_of_lt nnn hroom] at h
    cases h
    exact .call nnn hroom
  | jp nnn => cases h; exact .jump rfl _ ((addrOperand_le nnn).trans (by decide))
  | jpV0 nnn => cases h; exact .jump rfl _ (offsetTarget_le nnn _)
  | seImm | sneImm | seReg | sneReg | skp | sknp => cases h; exact .skip rfl _
  | ldImm | addImm | ldReg | orReg | andReg | xorReg | ldVxDT =>
    cases h; exact .writeV (by simp [writesData]) _
  | addReg | subReg | shr | subnReg | shl =>
    cases h; exact .writeFlagThenResult (by simp [writesData]) rfl _ _
  | ldI nnn => cases h; exact .index (.inl ⟨nnn, rfl⟩) _ (addrOperand_le nnn)
  | addI x => cases h; exact .index (.inr (.inl ⟨x, rfl⟩)) _ (indexSum_le _ _)
  | ldF x =>
    cases h
    exact .index (.inr (.inr ⟨x, rfl⟩)) _ ((toNat_glyphAddress _).2.trans (by decide))
  | rnd x nn => cases h; exact .random x nn _
  | drw x y n => cases h; exact .draw x y n _ _
  | ldVxK x => cases h; exact .wait x
  | ldDTVx x => cases h; exact .delayTimer x _
  | ldSTVx x => cases h; exact .soundTimer x _
  | ldB x => cases h; exact .store (.inl ⟨x, rfl⟩) _
  | storeRegs x => cases h; exact .store (.inr ⟨x, rfl⟩) _
  | loadRegs x => cases h; exact .loadRegs s x

/-! ### The writers of each part of the state -/

/-- Settles O48: each kind of change writes the part its constructor names, and no other. -/
theorem onlyTheNamedWriters : Obligations.OnlyTheNamedWriters := by
  intro i s t hexec
  cases effect_of_exec hexec with
  | registers | skip | jump | call | ret | random => simp
  | index hindex => simp [hindex]
  | store hstore => simp [hstore]
  | delayTimer | soundTimer | clear | draw | wait => simp

/-- Settles O49: `Effect.registers` says it of the register writers; the random draw names its
register, the sprite draw writes the flag, and no other kind of change writes a register. -/
theorem registerWriters : Obligations.RegisterWriters := by
  intro i s t r hexec hr
  cases effect_of_exec hexec with
  | registers v hwriter => exact hwriter r hr
  | random x nn b =>
    have hrx : r = x := by
      by_contra hne
      exact hr ((State.readV_writeV s x r b).trans (if_neg hne))
    exact .inl (decide_eq_true hrx)
  | draw x y n fb b =>
    have hr15 : r = 15 := by
      by_contra hne
      exact hr ((State.readV_writeV (s.setFB fb) 15 r b).trans (if_neg hne))
    exact .inr ⟨hr15, rfl⟩
  | skip _ c => exact absurd (State.readV_skipIf s c r) hr
  | jump | call | ret | index | store | delayTimer | soundTimer | clear | wait =>
    exact absurd rfl hr

theorem toNat_add_mod_two {w k : Word} (hk : k.toNat % 2 = 0) (hw : w.toNat % 2 = 0) :
    (w + k).toNat % 2 = 0 := by
  rw [BitVec.toNat_add]
  omega

/-- Settles O50: the kinds of change that do not set `PC` advance or skip, and 65536 is even. -/
theorem defaultAdvanceOrSkip : Obligations.DefaultAdvanceOrSkip := by
  intro i s t hsets hexec
  have hpc : t.pc = s.pc + 2 ∨ (isSkip i = true ∧ t.pc = s.pc + 4) := by
    cases effect_of_exec hexec with
    | skip hskip c => cases c with
      | false => exact .inl rfl
      | true => exact .inr ⟨hskip, rfl⟩
    | jump hjump => rw [hjump] at hsets; cases hsets
    | call | ret | wait => cases hsets
    | registers | random | index | store | delayTimer | soundTimer | clear | draw => exact .inl rfl
  refine ⟨hpc, fun heven => ?_⟩
  rcases hpc with hpc | ⟨-, hpc⟩ <;> rw [hpc] <;> exact toNat_add_mod_two rfl heven

/-! ### Who reads the random input and the keys -/

/-- An update of a field that the operations on registers, `PC` and the stack neither read nor
write. -/
structure Passive (g : State → State) : Prop where
  pc : ∀ s, (g s).pc = s.pc
  setPc : ∀ s w, (g s).setPc w = g (s.setPc w)
  writeV : ∀ s x b, (g s).writeV x b = g (s.writeV x b)
  push : ∀ s r, (g s).push r = (s.push r).map g
  pop : ∀ s, (g s).pop = s.pop.map (Prod.map id g)

theorem passive_draws (d : Nat) : Passive fun s => { s with draws := d } where
  pc _ := rfl
  setPc _ _ := rfl
  writeV _ _ _ := rfl
  push s r := by
    unfold State.push
    split <;> rfl
  pop s := by
    unfold State.pop
    split <;> rfl

theorem passive_keys (ks : Vector Bool 16) : Passive fun s => { s with keys := ks } where
  pc _ := rfl
  setPc _ _ := rfl
  writeV _ _ _ := rfl
  push s r := by
    unfold State.push
    split <;> rfl
  pop s := by
    unfold State.pop
    split <;> rfl

theorem Passive.skipIf {g : State → State} (hg : Passive g) (s : State) (c : Bool) :
    (g s).skipIf c = g (s.skipIf c) := by
  simp only [State.skipIf, State.advance, hg.pc, hg.setPc]
  exact (apply_ite g _ _ _).symm

theorem Passive.writeVs {g : State → State} (hg : Passive g) (k : Nat) (bs : List Byte)
    (s : State) :
    State.writeVs k bs (g s) = g (State.writeVs k bs s) := by
  induction bs generalizing k s with
  | nil => rfl
  | cons b bs ih => rw [State.writeVs, hg.writeV, ih, State.writeVs]

theorem Passive.exec_call {g : State → State} (hg : Passive g) (nnn : Addr) (s : State) :
    exec (.call nnn) (g s) = mapNext g (exec (.call nnn) s) := by
  simp only [exec, execCall, hg.pc, hg.push]
  cases s.push (s.pc + 2) with
  | none => rfl
  | some t => exact congrArg Host.Outcome.next (hg.setPc t _)

theorem Passive.exec_ret {g : State → State} (hg : Passive g) (s : State) :
    exec .ret (g s) = mapNext g (exec .ret s) := by
  simp only [exec, execRet, hg.pop]
  cases s.pop with
  | none => rfl
  | some popped => exact congrArg Host.Outcome.next (hg.setPc popped.2 _)

/-- Settles O51: the count of draws is passive for the shared operations, and only the random draw
has it among its arguments. -/
theorem onlyRandomReadsTheDraw : Obligations.OnlyRandomReadsTheDraw := by
  intro i s d hnot
  have hg := passive_draws d
  cases i with
  | rnd x nn => exact absurd rfl (hnot x nn)
  | seImm | sneImm | seReg | sneReg | skp | sknp => exact congrArg Host.Outcome.next (hg.skipIf s _)
  | loadRegs =>
    exact congrArg (fun t => Host.Outcome.next (State.advance t)) (hg.writeVs 0 (s.readBlock _) s)
  | call nnn => exact hg.exec_call nnn s
  | ret => exact hg.exec_ret s
  | _ => rfl

/-- Settles O52: the keys are passive for the shared operations, and only the two key skips have
them among their arguments. -/
theorem onlyKeySkipsReadTheKeys : Obligations.OnlyKeySkipsReadTheKeys := by
  intro i s ks hnot
  have hg := passive_keys ks
  cases i with
  | skp x => exact absurd rfl (hnot x).1
  | sknp x => exact absurd rfl (hnot x).2
  | seImm | sneImm | seReg | sneReg => exact congrArg Host.Outcome.next (hg.skipIf s _)
  | loadRegs =>
    exact congrArg (fun t => Host.Outcome.next (State.advance t)) (hg.writeVs 0 (s.readBlock _) s)
  | call nnn => exact hg.exec_call nnn s
  | ret => exact hg.exec_ret s
  | _ => rfl

end Sys2Proof
end

section
/-! Reset, load and the invariant (10_state.md R37, R38, 70_reset_and_hazards.md): the values after
reset, the bytes that `load` copies, and that every transition keeps the invariant. -/

namespace Sys2Proof

open Sys2Proof.Machine

/-! ### Reset -/

/-- The reset contents of the font's bytes (10_state.md R38). The font ends below `0x200`. -/
theorem unlisted_font (j : Fin 80) :
    Memory.unlisted (Config.fontBase.val + j.val) = Config.fontData j := by
  have hbase : Config.fontBase.val < 0x1B1 := Config.fontBase.isLt
  have hlow : ¬ 0x200 ≤ Config.fontBase.val + j.val := by omega
  have hfont : Config.fontBase.val ≤ Config.fontBase.val + j.val ∧
      Config.fontBase.val + j.val < Config.fontBase.val + 80 := by omega
  rw [Memory.unlisted, if_neg hlow, dif_pos hfont]
  exact congrArg Config.fontData (Fin.ext (Nat.add_sub_cancel_left _ _))

theorem unlisted_outside_font {a : Nat}
    (h : a < Config.fontBase.val ∨ Config.fontBase.val + 80 ≤ a) : Memory.unlisted a = 0 := by
  have hfont : ¬ (Config.fontBase.val ≤ a ∧ a < Config.fontBase.val + 80) := by omega
  rw [Memory.unlisted, dif_neg hfont, ite_self]

/-- Settles O46: the vectors are constant, and memory lists nothing, so it reads as the font and
zeros. -/
theorem resetValues : Obligations.ResetValues :=
  ⟨fun _ => Vector.getElem_replicate _, rfl, rfl, rfl, fun _ => Vector.getElem_replicate _, rfl,
    rfl, FrameBuffer.pixel_blank, fun _ => Vector.getElem_replicate _, rfl, rfl, unlisted_font,
    fun _ => unlisted_outside_font⟩

/-! ### Load -/

theorem load_of_le {s : State} {program : List Byte} (h : program.length ≤ 3583) :
    s.load program = .ok { s with mem := s.mem.writeBlock programBase 0 program } :=
  if_pos (decide_eq_true h)

theorem load_of_gt {s : State} {program : List Byte} (h : 3583 < program.length) :
    s.load program = .error .programTooLarge :=
  if_neg fun hfits => absurd (of_decide_eq_true hfits) (Nat.not_le.mpr h)

/-- No address of a program of at most 3583 bytes wraps (70_reset_and_hazards.md R265). -/
theorem ea_programBase {j : Nat} (h : j ≤ 3583) : ea programBase j = 0x200 + j :=
  Nat.mod_eq_of_lt (show 0x200 + j < 4096 by omega)

/-- Settles O47: the block store at `0x200`, whose addresses do not wrap. -/
theorem loadCopiesTheProgram : Obligations.LoadCopiesTheProgram := by
  intro s program
  refine ⟨fun hfits => ⟨_, load_of_le hfits, ?_, fun j hj => ?_, fun a ha => ?_, rfl⟩,
    fun hlarge => ⟨load_of_gt hlarge, ?_⟩⟩
  · rw [State.afterLoad, load_of_le hfits]
  · have hread := Memory.read_writeBlock programBase program 0 s.mem (by omega) j hj
    rwa [Nat.zero_add, ea_programBase (by omega)] at hread
  · refine Memory.read_writeBlock_of_notMem programBase program a 0 s.mem fun j hj => ?_
    rw [Nat.zero_add, ea_programBase (by omega)]
    omega
  · rw [State.afterLoad, load_of_gt hlarge]

/-! ### The invariant (10_state.md R37) -/

/-- Settles O53: no address is held and no key awaited, and the registers are in range. -/
theorem resetMeetsTheInvariant : Obligations.ResetMeetsTheInvariant where
  memory := Memory.wf_reset
  index := by decide
  pc := by decide
  stack j hj := absurd hj (Nat.not_lt_zero _)
  klatch := by decide
  waitPc := by decide

theorem Inv.setPc {s : State} (h : Inv s) (hwait : s.wait = none) {w : Word}
    (hw : w.toNat ≤ 0x10FE) : Inv (s.setPc w) where
  __ := h
  pc := hw
  waitPc hsome := by
    rw [State.wait_setPc, hwait] at hsome
    cases hsome

theorem toNat_pc_add {s : State} (hpc : s.pc.toNat ≤ 0xFFE) {k : Word} (hk : k.toNat ≤ 4) :
    (s.pc + k).toNat = s.pc.toNat + k.toNat := by
  rw [BitVec.toNat_add]
  omega

theorem Inv.skipIf {s : State} (h : Inv s) (hwait : s.wait = none) (hpc : s.pc.toNat ≤ 0xFFE)
    (c : Bool) : Inv (s.skipIf c) := by
  have htarget {k : Word} (hk : k.toNat ≤ 4) : (s.pc + k).toNat ≤ 0x10FE := by
    rw [toNat_pc_add hpc hk]
    omega
  cases c with
  | false => exact h.setPc hwait (htarget (by decide))
  | true => exact h.setPc hwait (htarget (by decide))

theorem Inv.advance {s : State} (h : Inv s) (hwait : s.wait = none) (hpc : s.pc.toNat ≤ 0xFFE) :
    Inv s.advance := h.skipIf hwait hpc false

theorem Inv.setIndex {s : State} (h : Inv s) {w : Word} (hw : w.toNat ≤ 0xFFF) :
    Inv (s.setIndex w) := { h with index := hw }

theorem Inv.writeBlock {s : State} (h : Inv s) (bs : List Byte) : Inv (s.writeBlock bs) :=
  { h with memory := Memory.wf_writeBlock _ _ _ h.memory }

/-- A push of `PC + 2` from a fetchable `PC` keeps the held addresses in range (R37 (e)). -/
theorem Inv.pushed {s : State} (h : Inv s) (hpc : s.pc.toNat ≤ 0xFFE) (hroom : s.sp.val < 16) :
    Inv { s with stack := s.stack.set s.sp.val (s.pc + 2) hroom
                 sp := ⟨s.sp.val + 1, by omega⟩ } where
  __ := h
  stack j hj := by
    have hreturn : (s.pc + 2).toNat = s.pc.toNat + 2 := toNat_pc_add hpc (by decide)
    simp only [Vector.getElem_set]
    by_cases htop : s.sp.val = j.val
    · rw [if_pos htop]
      omega
    · rw [if_neg htop]
      exact h.stack j (by simp only at hj; omega)

theorem Inv.popped {s : State} (h : Inv s) :
    Inv { s with sp := ⟨s.sp.val - 1, by omega⟩ } where
  __ := h
  stack j hj := h.stack j (by simp only at hj; omega)

theorem Inv.beginWait {s : State} (h : Inv s) (hpc : s.pc.toNat ≤ 0xFFE) (x : RegIndex) :
    Inv (s.setWait (some x) none) where
  __ := h
  klatch hsome := absurd hsome (by simp)
  waitPc _ := hpc

/-- The kinds of change, run by a step that has fetched at a `PC` of at most `0xFFE`, keep the
invariant. -/
theorem Inv.effect {s t : State} {i : Instr} (h : Inv s) (hwait : s.wait = none)
    (hpc : s.pc.toNat ≤ 0xFFE) (heffect : Effect s i t) : Inv t := by
  cases heffect with
  | registers v => exact Inv.advance (s := { s with v := v }) { h with } hwait hpc
  | random x nn b => exact Inv.advance (s := (s.writeV x b).countDraw) { h with } hwait hpc
  | skip _ c => exact h.skipIf hwait hpc c
  | jump _ w hw => exact h.setPc hwait hw
  | call nnn hroom =>
    exact (h.pushed hpc hroom).setPc hwait ((addrOperand_le nnn).trans (by decide))
  | ret hheld =>
    refine h.popped.setPc hwait ?_
    exact (h.stack ⟨s.sp.val - 1, by omega⟩ (Nat.sub_one_lt_of_lt hheld)).2.trans (by decide)
  | index _ w hw => exact (h.setIndex hw).advance hwait hpc
  | store _ bs => exact (h.writeBlock bs).advance hwait hpc
  | delayTimer x b => exact Inv.advance (s := s.setDT b) { h with } hwait hpc
  | soundTimer x b => exact Inv.advance (s := s.setST b) { h with } hwait hpc
  | clear fb => exact Inv.advance (s := s.setFB fb) { h with } hwait hpc
  | draw x y n fb b => exact Inv.advance (s := (s.setFB fb).writeV 15 b) { h with } hwait hpc
  | wait x => exact h.beginWait hpc x

/-- The end of a wait advances from the fetchable `PC` of the `Fx0A` (clause `waitPc`). -/
theorem Inv.completeWait {s : State} (h : Inv s) {x : RegIndex} (hwait : s.wait = some x)
    (k : KeyIndex) : Inv (s.completeWait x k) where
  memory := h.memory
  index := h.index
  pc := by
    have hpc : s.pc.toNat ≤ 0xFFE := h.waitPc (by rw [hwait]; rfl)
    have hnext : (s.pc + 2).toNat = s.pc.toNat + 2 := toNat_pc_add hpc (by decide)
    exact (hnext.trans_le (Nat.add_le_add_right hpc 2)).trans (by decide)
  stack := h.stack
  klatch hsome := by cases hsome
  waitPc hsome := by cases hsome

theorem Inv.interpret {s t : State} (h : Inv s) (hstep : interpret s = .next t) : Inv t := by
  rcases interpret_cases s with ⟨x, -, -, hint⟩ | ⟨x, k, hwait, -, hint⟩ | ⟨-, -, hint⟩ |
    ⟨i, hwait, hhalted, -, hint⟩ | ⟨e, hwait, hhalted, -, hint⟩ <;> rw [hint] at hstep
  · cases hstep; exact h
  · cases hstep; exact h.completeWait hwait k
  · cases hstep; exact h
  · exact h.effect hwait (halted_eq_false_iff.mp hhalted) (effect_of_exec hstep)
  · cases hstep; exact h.advance hwait (halted_eq_false_iff.mp hhalted)

/-- A key is latched by `key_event` only while one is awaited (R37 (f)). -/
theorem Inv.keyEvent {s : State} (h : Inv s) (k : KeyIndex) (pressed : Bool) :
    Inv (s.keyEvent k pressed) where
  memory := h.memory
  index := h.index
  pc := h.pc
  stack := h.stack
  klatch hsome := by
    by_cases hfirst : pressed = true ∧ s.wait ≠ none ∧ s.klatch = none
    · exact Option.isSome_iff_ne_none.mpr hfirst.2.1
    · rw [State.klatch_keyEvent, latchAfter_of_not_first k hfirst] at hsome
      exact h.klatch hsome
  waitPc := h.waitPc

theorem Inv.afterLoad {s : State} (h : Inv s) (program : List Byte) :
    Inv (s.afterLoad program) := by
  rcases Nat.lt_or_ge 3583 program.length with hlarge | hfits
  · rw [State.afterLoad, load_of_gt hlarge]
    exact h
  · rw [State.afterLoad, load_of_le hfits]
    exact { h with memory := Memory.wf_writeBlock _ _ _ h.memory }

theorem Inv.perform {s t : State} (h : Inv s) (e : Transition) (hperform : perform e s = .next t) :
    Inv t := by
  cases e with
  | step => exact h.interpret hperform
  | tick => cases hperform; exact { h with }
  | keyEvent k pressed => cases hperform; exact h.keyEvent k pressed
  | load program => cases hperform; exact h.afterLoad program
  | reset => cases hperform; exact { resetMeetsTheInvariant with }

/-- Settles O54: one lemma per transition, and for an instruction one case per kind of change. -/
theorem stepKeepsTheInvariant : Obligations.StepKeepsTheInvariant := by
  intro s t h hstep
  rcases step_cases s with ⟨-, hs⟩ | ⟨e, es, -, hs⟩ <;> rw [hs] at hstep
  · exact h.interpret hstep
  · exact Inv.perform (s := s.setRequests es) { h with } e hstep

end Sys2Proof
end
